-- ==== Sys2Proof/Word.lean ====
section
/-! DEFINITION. The word: a `W`-bit two's-complement signed integer with `W = 32` (00_scope.md R8, log entry 1). -/

namespace Sys2Proof

/-- The content of one memory cell, of the pc and of `fault_info`, and every host data value (R8). Its signed
reading is `BitVec.toInt`. -/
abbrev Word := BitVec 32

end Sys2Proof
end

