-- ==== Sys2Proof/Config.lean ====
section
/-! DEFINITION. The parameters of the block (00_scope.md section 4) and the constants the rules use. -/

namespace Sys2Proof

/-- `OVF`, the signed-overflow policy of ADD and MUL (R10). -/
inductive Overflow where
  /-- An overflowing result raises `ArithmeticOverflow`. -/
  | fault
  /-- An overflowing result is reduced modulo `2^W`. -/
  | wrap
deriving DecidableEq, Repr

namespace Config

/-- The value R10 fixes for `OVF`. The state carries the parameter, so `wrap` is modelled too (log entry 2). -/
def ovf : Overflow := .fault

/-- The largest signed word, `2^(W-1) - 1`. -/
abbrev wordMax : Int := 2147483647

/-- The smallest signed word, `-2^(W-1)`. -/
abbrev wordMin : Int := -2147483648

/-- The largest `MEM_LEN` that R9 allows, `2^(W-1) - 1`. -/
abbrev maxMemLen : Nat := 2147483647

/-- `MEM_LEN` of `State.reset`: the largest the spec allows, so that memory is the whole address space.
DESIGN CHOICE, log entry 3 (unsafe). -/
abbrev resetMemLen : Nat := maxMemLen

/-- What a cell not listed in the sparse memory holds. The snapshot gives every cell a word; the cells whose
word is this one are not listed (log entries 3 and 4). -/
abbrev unlistedCell : Word := 0

/-- The largest value of the ignored digits (`10^5` and above) of an instruction word:
`21474 * 100000 + 11199 ≤ 2^31 - 1 < 21475 * 100000`. -/
abbrev maxUpper : Nat := 21474

end Config
end Sys2Proof
end

