-- ==== Sys2Proof/Syntax.lean ====
section
/-! DEFINITION. The instructions as syntax: one constructor per row of spec/opcode_table.json. -/

namespace Sys2Proof

/-- The two addressing modes (30_encoding.md R67). -/
inductive Mode where
  /-- The operand is an address; dereference once. -/
  | position
  /-- The operand is used literally. -/
  | immediate
deriving DecidableEq, Repr

/-- The nine instruction kinds (30_encoding.md R63). -/
inductive Kind where
  | add | mul | inp | out | jt | jf | lt | eq | halt
deriving DecidableEq, Repr

/-- What an instruction word says beside its opcode: the three mode slots, all three decoded for every
instruction (R68), and the digits at `10^5` and above, which have no effect (R61, R62). They are kept so
that an instruction's word can be written again (log entry 8). -/
structure Header where
  m1 : Mode
  m2 : Mode
  m3 : Mode
  upper : Nat
deriving DecidableEq, Repr

/-- An instruction: its header and its raw operands (R60, R65). -/
inductive Instr where
  /-- ADD: source A, source B, destination address. -/
  | add (h : Header) (a b d : Word)
  /-- MUL: source A, source B, destination address. -/
  | mul (h : Header) (a b d : Word)
  /-- IN: destination, by mode slot 1. -/
  | inp (h : Header) (a : Word)
  /-- OUT: source. -/
  | out (h : Header) (a : Word)
  /-- JT: condition, target. -/
  | jt (h : Header) (c t : Word)
  /-- JF: condition, target. -/
  | jf (h : Header) (c t : Word)
  /-- LT: source A, source B, destination address. -/
  | lt (h : Header) (a b d : Word)
  /-- EQ: source A, source B, destination address. -/
  | eq (h : Header) (a b d : Word)
  /-- HALT. -/
  | halt (h : Header)
deriving DecidableEq, Repr

/-- The kind of an instruction. -/
def Instr.kind : Instr → Kind
  | .add .. => .add
  | .mul .. => .mul
  | .inp .. => .inp
  | .out .. => .out
  | .jt .. => .jt
  | .jf .. => .jf
  | .lt .. => .lt
  | .eq .. => .eq
  | .halt .. => .halt

/-- The header of an instruction. -/
def Instr.header : Instr → Header
  | .add h _ _ _ => h
  | .mul h _ _ _ => h
  | .inp h _ => h
  | .out h _ => h
  | .jt h _ _ => h
  | .jf h _ _ => h
  | .lt h _ _ _ => h
  | .eq h _ _ _ => h
  | .halt h => h

/-- The raw operand words, in the order of the operand cells (R65). -/
def Instr.operands : Instr → List Word
  | .add _ a b d => [a, b, d]
  | .mul _ a b d => [a, b, d]
  | .inp _ a => [a]
  | .out _ a => [a]
  | .jt _ c t => [c, t]
  | .jf _ c t => [c, t]
  | .lt _ a b d => [a, b, d]
  | .eq _ a b d => [a, b, d]
  | .halt _ => []

end Sys2Proof
end

