-- ==== Sys2Proof/WellFormed.lean ====
section
/-! DEFINITION. Which instruction terms have an encoding. Modes are legal by their type and operands are any
word, so the one thing to check is that the instruction word fits in a word (30_encoding.md R62: "as long as
it fits in `W` bits"). -/

namespace Sys2Proof

/-- The instruction's word fits: its ignored digits are at most `Config.maxUpper`. -/
abbrev Instr.wellFormed (i : Instr) : Prop := i.header.upper ≤ Config.maxUpper

end Sys2Proof
end

