-- ==== Sys2Proof/Decode.lean ====
section
/-! DEFINITION. The decoder (30_encoding.md R61 to R74), total on any words, and the encoder written from the
same table (R62, R63). -/

namespace Sys2Proof

/-- `trunc_div(a, b)`: the quotient rounded toward zero (00_scope.md R13). -/
def truncDiv (a b : Int) : Int := Int.tdiv a b

/-- `trunc_rem(a, b)`: the remainder with the sign of `a` (00_scope.md R13). -/
def truncRem (a b : Int) : Int := Int.tmod a b

/-- `digit(v, k)` (00_scope.md R13). -/
def digit (v : Int) (k : Nat) : Int := truncRem (truncDiv v (10 ^ k)) 10

/-- The opcode map of 30_encoding.md R63. -/
def Kind.opcode : Kind → Nat
  | .add => 1
  | .mul => 2
  | .inp => 3
  | .out => 4
  | .jt => 5
  | .jf => 6
  | .lt => 7
  | .eq => 8
  | .halt => 99

/-- The number of cells of an instruction, its opcode cell included (30_encoding.md R63). -/
def Kind.width : Kind → Nat
  | .add => 4
  | .mul => 4
  | .inp => 2
  | .out => 2
  | .jt => 3
  | .jf => 3
  | .lt => 4
  | .eq => 4
  | .halt => 1

/-- The parameter count, `width - 1` (30_encoding.md R66). -/
def Kind.nparams (k : Kind) : Nat := k.width - 1

/-- Opcode dispatch: the kind of a legal opcode; every other value is illegal (30_encoding.md R70). -/
def Kind.ofOpcode (op : Int) : Option Kind :=
  if op = 1 then some .add
  else if op = 2 then some .mul
  else if op = 3 then some .inp
  else if op = 4 then some .out
  else if op = 5 then some .jt
  else if op = 6 then some .jf
  else if op = 7 then some .lt
  else if op = 8 then some .eq
  else if op = 99 then some .halt
  else none

/-- The digit of a mode (30_encoding.md R67). -/
def Mode.digit : Mode → Nat
  | .position => 0
  | .immediate => 1

/-- The mode of a digit; a digit outside `{0, 1}` has none (30_encoding.md R67, R68). -/
def Mode.ofDigit (n : Int) : Option Mode :=
  if n = 0 then some .position
  else if n = 1 then some .immediate
  else none

/-- Why a list of words is no instruction. The first two are the decode errors of R74; the last is R106's
truncated instruction, which is no fault. -/
inductive Reject where
  | invalidOpcode (w : Word)
  | invalidMode (w : Word)
  | truncated
deriving DecidableEq, Repr

/-- What one instruction word decodes to (30_encoding.md R74; `width` and `nparams` are functions of `kind`). -/
structure Decoded where
  kind : Kind
  header : Header
deriving DecidableEq, Repr

/-- `Decode(w)` of 30_encoding.md R74: the opcode first, then mode slots 1, 2, 3. -/
def decodeWord (w : Word) : Except Reject Decoded :=
  match Kind.ofOpcode (truncRem w.toInt 100) with
  | none => .error (.invalidOpcode w)
  | some k =>
    match Mode.ofDigit (digit w.toInt 2), Mode.ofDigit (digit w.toInt 3), Mode.ofDigit (digit w.toInt 4) with
    | some m1, some m2, some m3 => .ok ⟨k, ⟨m1, m2, m3, (truncDiv w.toInt 100000).toNat⟩⟩
    | _, _, _ => .error (.invalidMode w)

/-- The instruction of a kind, its header and the words after its opcode cell; none when there are fewer
words than the kind has parameters (30_encoding.md R65, R66). -/
def assemble (h : Header) : Kind → List Word → Option Instr
  | .add, a :: b :: d :: _ => some (.add h a b d)
  | .mul, a :: b :: d :: _ => some (.mul h a b d)
  | .inp, a :: _ => some (.inp h a)
  | .out, a :: _ => some (.out h a)
  | .jt, c :: t :: _ => some (.jt h c t)
  | .jf, c :: t :: _ => some (.jf h c t)
  | .lt, a :: b :: d :: _ => some (.lt h a b d)
  | .eq, a :: b :: d :: _ => some (.eq h a b d)
  | .halt, _ => some (.halt h)
  | _, _ => none

/-- Decoding from a list of cells that starts at the opcode cell. The order is that of 40_step_and_decode.md
R117: opcode, modes, then whether the operand cells are there. -/
def decode : List Word → Except Reject Instr
  | [] => .error .truncated
  | w :: rest =>
    match decodeWord w with
    | .error e => .error e
    | .ok d =>
      match assemble d.header d.kind rest with
      | some i => .ok i
      | none => .error .truncated

/-- The value of an instruction word (30_encoding.md R62), the ignored digits included. -/
def headerValue (k : Kind) (h : Header) : Nat :=
  h.upper * 100000 + h.m3.digit * 10000 + h.m2.digit * 1000 + h.m1.digit * 100 + k.opcode

/-- The instruction word of a kind and a header. -/
def headerWord (k : Kind) (h : Header) : Word := BitVec.ofNat 32 (headerValue k h)

/-- The words of an instruction: its opcode cell, then its operand cells (30_encoding.md R60, R65). -/
def encode (i : Instr) : List Word := headerWord i.kind i.header :: i.operands

/-- The number of cells an instruction occupies. -/
def Instr.width (i : Instr) : Nat := i.kind.width

/-- The four cells of the number `w` when only its low `nbits` bits count: bit 0 is the least significant bit
of the first cell, and each later cell takes the next 32 bits. -/
def tableWords (nbits w : Nat) : List Word :=
  [BitVec.ofNat 32 (w % 2 ^ nbits), BitVec.ofNat 32 (w % 2 ^ nbits / 2 ^ 32),
   BitVec.ofNat 32 (w % 2 ^ nbits / 2 ^ 64), BitVec.ofNat 32 (w % 2 ^ nbits / 2 ^ 96)]

/-- The instruction the decoder reads from the bits of an opcode-table row; none where it rejects them. -/
def decodeTableWord (nbits w : Nat) : Option Instr :=
  match decode (tableWords nbits w) with
  | .ok i => some i
  | .error _ => none

end Sys2Proof
end

