-- ==== Sys2Proof/Machine/State.lean ====
section
/-! DEFINITION. The state of one Machine, as plain data (10_state.md), and the reasons a step could stop. -/

namespace Sys2Proof.Machine

/-- `run_state`: exactly four legal values (10_state.md R22). -/
inductive RunState where
  | running
  | awaitingInput
  | awaitingOutput
  | stopped
deriving DecidableEq, Repr

/-- The recorded faults (10_state.md R24, 60_exceptions.md R220). The register `fault` holds one of them or
`None`. -/
inductive Cause where
  | invalidOpcode
  | invalidMode
  | outOfBounds
  | arithmeticOverflow
  | contractViolation
deriving DecidableEq, Repr

/-- `F(info)` of `raise F(info)` (00_scope.md R15). -/
structure Raised where
  cause : Cause
  info : Word
deriving DecidableEq, Repr

/-- Memory, sparse: pairs of cell index and word, indices strictly rising, no pair whose word is
`Config.unlistedCell`. The addressable unit of the spec is the whole-word cell (20_memory.md R45; log
entry 4). -/
abbrev Memory := List (Nat × Word)

/-- The whole state of one Machine: the tuple of 10_state.md R32, and the parameters `MEM_LEN` and `OVF`,
which no command writes (log entries 2 and 3). -/
structure State where
  /-- `memory` (R20). -/
  mem : Memory
  /-- `MEM_LEN`, fixed by create (R41). -/
  memLen : Nat
  /-- `pc`, read as a signed word (R21). -/
  pc : Word
  /-- `run_state` (R22). -/
  runState : RunState
  /-- The sticky register `fault`; `none` is the spec's value `None` (R24). -/
  fault : Option Cause
  /-- `fault_info` (R24). -/
  faultInfo : Word
  /-- `OVF` (R10), a parameter carried along. -/
  ovf : Overflow
deriving DecidableEq, Repr

/-- The faults a step of the model could end in: none. Every fault of 60_exceptions.md R220 is taken by the
instruction or command that raises it, as R225 describes, and so is a next state (log entry 5, safe). -/
inductive Fault : Type
deriving DecidableEq, Repr

/-- The refusals a step of the model could end in. -/
inductive Refusal where
  /-- An instruction without a meaning; raised by no arm of `exec`. Safe. -/
  | notModelled (mnemonic : String)
deriving DecidableEq, Repr

/-- The Machine right after `create` of the snapshot of zeros that has the largest length (70_reset_and_hazards.md
R250; the snapshot is log entry 3). -/
def State.reset : State where
  mem := []
  memLen := Config.resetMemLen
  pc := 0
  runState := .running
  fault := none
  faultInfo := 0
  ovf := Config.ovf

end Sys2Proof.Machine
end

