-- ==== Sys2Proof/Machine/Ops.lean ====
section
/-! DEFINITION. The named operations over memory and registers, and taking a fault. -/

namespace Sys2Proof.Machine

/-! ## Memory as a list -/

/-- The word of a cell. -/
def Memory.lookup : Memory → Nat → Word
  | [], _ => Config.unlistedCell
  | (b, w) :: rest, a => if a = b then w else Memory.lookup rest a

/-- The memory without a pair for cell `a`. -/
def Memory.erase (m : Memory) (a : Nat) : Memory := m.filter fun c => c.1 ≠ a

/-- The memory with a pair for cell `a` at its place. -/
def Memory.insert (a : Nat) (v : Word) : Memory → Memory
  | [] => [(a, v)]
  | (b, w) :: rest => if a < b then (a, v) :: (b, w) :: rest else (b, w) :: Memory.insert a v rest

/-- Writing a word into a cell, in canonical form: the word of an unlisted cell is not listed. -/
def Memory.store (m : Memory) (a : Nat) (v : Word) : Memory :=
  if v = Config.unlistedCell then Memory.erase m a else Memory.insert a v (Memory.erase m a)

/-- The canonical form: cell indices strictly rise and no pair holds the word of an unlisted cell. -/
abbrev Memory.wf (m : Memory) : Prop :=
  m.Pairwise (fun c e => c.1 < e.1) ∧ ∀ c ∈ m, c.2 ≠ Config.unlistedCell

/-- The memory whose cells from `start` on are the words given. -/
def Memory.ofWords (start : Nat) : List Word → Memory
  | [] => []
  | w :: rest =>
    if w = Config.unlistedCell then Memory.ofWords (start + 1) rest else (start, w) :: Memory.ofWords (start + 1) rest

/-- The words of `n` consecutive cells. -/
def Memory.window (m : Memory) (start : Nat) : Nat → List Word
  | 0 => []
  | n + 1 => Memory.lookup m start :: Memory.window m (start + 1) n

/-! ## Updates of the state -/

/-- Cell `a` becomes `v`. -/
def State.storeCell (s : State) (a : Nat) (v : Word) : State := { s with mem := Memory.store s.mem a v }

/-- `pc <- t` (00_scope.md R14). -/
def State.setPc (s : State) (t : Word) : State := { s with pc := t }

/-- The sequential advance `pc <- pc + width` (40_step_and_decode.md R113, R114). -/
def State.advance (s : State) (width : Nat) : State := s.setPc (s.pc + BitVec.ofNat 32 width)

/-- `run_state <- r` (00_scope.md R14). -/
def State.setRunState (s : State) (r : RunState) : State := { s with runState := r }

/-- Taking a fault: `raise F(info)` writes `fault` and `fault_info` and nothing else (00_scope.md R15,
10_state.md R26, 60_exceptions.md R225). There is no return from a fault (R226). -/
def State.takeFault (s : State) (r : Raised) : State := { s with fault := some r.cause, faultInfo := r.info }

/-! ## Memory access -/

/-- A word is a valid address when, read as a signed integer, it is at least 0 and below `MEM_LEN`
(20_memory.md R42). -/
abbrev State.ValidAddr (s : State) (a : Word) : Prop := 0 ≤ a.toInt ∧ a.toInt < s.memLen

/-- The word of the cell with index `a`. -/
def State.cell (s : State) (a : Nat) : Word := Memory.lookup s.mem a

/-- `MemRead(a, 1)` (20_memory.md R43). -/
def memRead (s : State) (a : Word) : Except Raised Word :=
  if s.ValidAddr a then .ok (s.cell a.toNat) else .error ⟨.outOfBounds, a⟩

/-- `MemWrite(a, 1, v)` (20_memory.md R44). -/
def memWrite (s : State) (a v : Word) : Except Raised State :=
  if s.ValidAddr a then .ok (s.storeCell a.toNat v) else .error ⟨.outOfBounds, a⟩

/-! ## How an instruction ends -/

/-- The end of an instruction begun at `s`: the state it computed, or the fault it raised, taken at `s`, which
discards every write it would have made (00_scope.md R15). -/
def finish (s : State) : Except Raised State → Host.Outcome State Fault Refusal
  | .ok t => .next t
  | .error r => .next (s.takeFault r)

end Sys2Proof.Machine
end

