-- ==== Sys2Proof/Machine/Flags.lean ====
section
/-! DEFINITION. The block has no status flags and no condition codes (10_state.md R30). What stands where other
machines compute flags: the range check of ADD and MUL with the overflow policy (41_arithmetic.md R130), and the
Boolean word of LT and EQ (R30). -/

namespace Sys2Proof.Machine

/-- `fits_W(v)` (00_scope.md R12). -/
abbrev fitsW (v : Int) : Prop := Config.wordMin ≤ v ∧ v ≤ Config.wordMax

/-- `wrap_W(v)` (00_scope.md R12): the word congruent to `v` modulo `2^W`. For a `v` that fits it is the word
whose signed value is `v`. -/
def wrapW (v : Int) : Word := BitVec.ofInt 32 v

/-- `Fit(v)` (41_arithmetic.md R130) for the instruction word `w`. -/
def fit (ovf : Overflow) (w : Word) (v : Int) : Except Raised Word :=
  if fitsW v then .ok (wrapW v)
  else match ovf with
    | .fault => .error ⟨.arithmeticOverflow, w⟩
    | .wrap => .ok (wrapW v)

/-- The Boolean result of LT and EQ as a word, 1 or 0 (10_state.md R30). -/
def boolWord (b : Bool) : Word := if b then 1 else 0

end Sys2Proof.Machine
end

