-- ==== Sys2Proof/Machine/Operands.lean ====
section
/-! DEFINITION. The operand forms: the resolver (40_step_and_decode.md R110) and IN's destination (42_io.md R143). -/

namespace Sys2Proof.Machine

/-- `Resolve(raw, m)` (40_step_and_decode.md R110): dereference once, or the raw operand itself. -/
def resolve (s : State) (raw : Word) : Mode → Except Raised Word
  | .position => memRead s raw
  | .immediate => .ok raw

/-- `InputDest(ipc, raw1, m1)` (42_io.md R143): the cell a Position operand names, or, for Immediate, the
operand's own cell. -/
def inputDest (ipc raw1 : Word) : Mode → Word
  | .position => raw1
  | .immediate => ipc + 1

/-- `Pending()` (42_io.md R144): mode slot 1 and the raw operand of the pending IN or OUT, read again at the
held pc. A mode digit outside `{0, 1}` occurs in no state a run reaches (R201); it raises `InvalidMode`
(DESIGN CHOICE, log entry 10). -/
def pending (s : State) : Except Raised (Mode × Word) := do
  let w ← memRead s s.pc
  let raw1 ← memRead s (s.pc + 1)
  match Mode.ofDigit (digit w.toInt 2) with
  | some m1 => .ok (m1, raw1)
  | none => .error ⟨.invalidMode, w⟩

end Sys2Proof.Machine
end

