-- ==== Sys2Proof/Machine/Datapath.lean ====
section
/-! DEFINITION. The two datapaths that several instructions share: format F4 (two sources, one result cell) and
the conditional jump. -/

namespace Sys2Proof.Machine

/-- Format F4 (ADD, MUL, LT, EQ): resolve operand 1, then operand 2, compute, write the raw destination address,
advance by 4. The order of the checks is that of 40_step_and_decode.md R111 and R117. -/
def binaryToCell (f : Word → Word → Except Raised Word) (h : Header) (a b d : Word) (s : State) :
    Except Raised State := do
  let x ← resolve s a h.m1
  let y ← resolve s b h.m2
  let r ← f x y
  let t ← memWrite s d r
  .ok (t.advance 4)

/-- The conditional jump (43_jumps.md R160): both operands are resolved before the condition is tested; the
target is not checked (R163). -/
def jumpWhen (taken : Word → Bool) (h : Header) (c t : Word) (s : State) : Except Raised State := do
  let x ← resolve s c h.m1
  let y ← resolve s t h.m2
  .ok (if taken x then s.setPc y else s.advance 3)

end Sys2Proof.Machine
end

