-- ==== Sys2Proof/Machine/Arithmetic.lean ====
section
/-! DEFINITION. ADD and MUL (41_arithmetic.md). -/

namespace Sys2Proof.Machine

/-- ADD (41_arithmetic.md R131). -/
def execAdd (h : Header) (a b d : Word) (s : State) : Host.Outcome State Fault Refusal :=
  finish s (binaryToCell (fun x y => fit s.ovf (headerWord .add h) (x.toInt + y.toInt)) h a b d s)

/-- MUL (41_arithmetic.md R132). -/
def execMul (h : Header) (a b d : Word) (s : State) : Host.Outcome State Fault Refusal :=
  finish s (binaryToCell (fun x y => fit s.ovf (headerWord .mul h) (x.toInt * y.toInt)) h a b d s)

end Sys2Proof.Machine
end

