-- ==== Sys2Proof/Machine/Compare.lean ====
section
/-! DEFINITION. LT and EQ (44_compare.md). -/

namespace Sys2Proof.Machine

/-- LT: a signed comparison (44_compare.md R170). -/
def execLt (h : Header) (a b d : Word) (s : State) : Host.Outcome State Fault Refusal :=
  finish s (binaryToCell (fun x y => .ok (boolWord (decide (x.toInt < y.toInt)))) h a b d s)

/-- EQ (44_compare.md R171). -/
def execEq (h : Header) (a b d : Word) (s : State) : Host.Outcome State Fault Refusal :=
  finish s (binaryToCell (fun x y => .ok (boolWord (decide (x.toInt = y.toInt)))) h a b d s)

end Sys2Proof.Machine
end

