-- ==== Sys2Proof/Machine/InputOutput.lean ====
section
/-! DEFINITION. IN and OUT: the step phase of each and the completion the host commands run (42_io.md). -/

namespace Sys2Proof.Machine

/-- IN, step phase: announce and hold the pc; the operand is not interpreted (42_io.md R141). -/
def execIn (_h : Header) (_a : Word) (s : State) : Host.Outcome State Fault Refusal :=
  .next (s.setRunState .awaitingInput)

/-- OUT, step phase: announce and hold the pc; the operand is not resolved (42_io.md R142). -/
def execOut (_h : Header) (_a : Word) (s : State) : Host.Outcome State Fault Refusal :=
  .next (s.setRunState .awaitingOutput)

/-- IN, completion with the word `v` (42_io.md R145). -/
def completeIn (v : Word) (s : State) : Except Raised State := do
  let (m1, raw1) ← pending s
  let t ← memWrite s (inputDest s.pc raw1 m1) v
  .ok ((t.advance 2).setRunState .running)

/-- OUT, completion: the resolved operand is the output; memory is not written (42_io.md R146, R147). -/
def completeOut (s : State) : Except Raised (State × Word) := do
  let (m1, raw1) ← pending s
  let x ← resolve s raw1 m1
  .ok ((s.advance 2).setRunState .running, x)

end Sys2Proof.Machine
end

