-- ==== Sys2Proof/Machine/Jumps.lean ====
section
/-! DEFINITION. JT and JF (43_jumps.md). -/

namespace Sys2Proof.Machine

/-- JT: jump when the condition is not zero (43_jumps.md R161). -/
def execJt (h : Header) (c t : Word) (s : State) : Host.Outcome State Fault Refusal :=
  finish s (jumpWhen (fun x => decide (x ≠ 0)) h c t s)

/-- JF: jump when the condition is zero (43_jumps.md R162). -/
def execJf (h : Header) (c t : Word) (s : State) : Host.Outcome State Fault Refusal :=
  finish s (jumpWhen (fun x => decide (x = 0)) h c t s)

end Sys2Proof.Machine
end

