-- ==== Sys2Proof/Machine/Stop.lean ====
section
/-! DEFINITION. HALT (45_stop.md). -/

namespace Sys2Proof.Machine

/-- HALT: the run state becomes `Stopped`; pc and memory are held (45_stop.md R180). -/
def execHalt (_h : Header) (s : State) : Host.Outcome State Fault Refusal :=
  .next (s.setRunState .stopped)

end Sys2Proof.Machine
end

