-- ==== Sys2Proof/Machine/Dispatch.lean ====
section
/-! DEFINITION. The dispatch of 40_step_and_decode.md R108: one arm per instruction. -/

namespace Sys2Proof.Machine

/-- Executes one decoded instruction, after the checks of `frontEnd` (R108). -/
def exec (i : Instr) (s : State) : Host.Outcome State Fault Refusal :=
  match i with
  | .add h a b d => Sys2Proof.Machine.execAdd h a b d s
  | .mul h a b d => Sys2Proof.Machine.execMul h a b d s
  | .inp h a => Sys2Proof.Machine.execIn h a s
  | .out h a => Sys2Proof.Machine.execOut h a s
  | .jt h c t => Sys2Proof.Machine.execJt h c t s
  | .jf h c t => Sys2Proof.Machine.execJf h c t s
  | .lt h a b d => Sys2Proof.Machine.execLt h a b d s
  | .eq h a b d => Sys2Proof.Machine.execEq h a b d s
  | .halt h => Sys2Proof.Machine.execHalt h s

end Sys2Proof.Machine
end

