-- ==== Sys2Proof/Machine/Fetch.lean ====
section
/-! DEFINITION. The stages of `step` before the dispatch: gates, fetch, decode, width check (40_step_and_decode.md
R100 to R107), the codes of the commands, and placing words where the next step fetches. -/

namespace Sys2Proof.Machine

/-- What the stages before the dispatch come to. -/
inductive Fetched where
  /-- The step ends here, in this state. -/
  | ends (s : State)
  /-- This instruction is dispatched. -/
  | runs (i : Instr)
deriving DecidableEq, Repr

/-- The command codes a contract violation records (46_host_interface.md R190). -/
def cmdStep : Word := 1

/-- `CMD_SUPPLY` (R190). -/
def cmdSupply : Word := 2

/-- `CMD_TAKE` (R190). -/
def cmdTake : Word := 3

/-- The cells from the pc on that memory has, at most the four that the widest instruction takes. It is read
only for a pc at or above 0. -/
def State.instrCells (s : State) : List Word :=
  Memory.window s.mem s.pc.toNat (min 4 (s.memLen - s.pc.toNat))

/-- Fetch, decode and width check of a Machine that runs (40_step_and_decode.md R103 to R107): a negative pc is out
of bounds, a pc at or past the end stops the Machine, and so does a truncated instruction (R106). -/
def fetchDecode (s : State) : Fetched :=
  if s.pc.toInt < 0 then .ends (s.takeFault ⟨.outOfBounds, s.pc⟩)
  else if (s.memLen : Int) ≤ s.pc.toInt then .ends (s.setRunState .stopped)
  else
    match decode s.instrCells with
    | .ok i => .runs i
    | .error (.invalidOpcode w) => .ends (s.takeFault ⟨.invalidOpcode, w⟩)
    | .error (.invalidMode w) => .ends (s.takeFault ⟨.invalidMode, w⟩)
    | .error .truncated => .ends (s.setRunState .stopped)

/-- The fault gate (R101), the run-state gate (R102), then fetch and decode. -/
def frontEnd (s : State) : Fetched :=
  match s.fault with
  | some _ => .ends s
  | none =>
    match s.runState with
    | .stopped => .ends s
    | .awaitingInput => .ends (s.takeFault ⟨.contractViolation, cmdStep⟩)
    | .awaitingOutput => .ends (s.takeFault ⟨.contractViolation, cmdStep⟩)
    | .running => fetchDecode s

/-- Stores the words given in consecutive cells. -/
def placeWords (s : State) (start : Nat) : List Word → State
  | [] => s
  | w :: rest => placeWords (s.storeCell start w) (start + 1) rest

/-- The state made ready to fetch at its pc: no recorded fault, `Running`, four cells from the pc on. A pc from
which four cells cannot exist goes to 0, the reset vector, and a memory that ends too early gets longer. A state
that is ready is left as it is. -/
def readyToFetch (s : State) : State :=
  let pc : Word := if 0 ≤ s.pc.toInt ∧ s.pc.toInt + 4 ≤ Config.maxMemLen then s.pc else 0
  { s with
    pc := pc
    memLen := max s.memLen (pc.toNat + 4)
    runState := .running
    fault := none
    faultInfo := if s.fault = none then s.faultInfo else 0 }

end Sys2Proof.Machine
end

