-- ==== Sys2Proof/Machine/Step.lean ====
section
/-! DEFINITION. The step: the host command `step` (40_step_and_decode.md R100), one atomic transition. -/

namespace Sys2Proof.Machine

/-- `Step()` of R100. -/
def step (s : State) : Host.Outcome State Fault Refusal :=
  match frontEnd s with
  | .ends t => .next t
  | .runs i => exec i s

/-- The state with an instruction's bits stored in the four cells at its pc, ready to fetch them. -/
def State.withFetchWord (s : State) (nbits w : Nat) : State :=
  placeWords (readyToFetch s) (readyToFetch s).pc.toNat (tableWords nbits w)

end Sys2Proof.Machine
end

