-- ==== Sys2Proof/Machine/HostCommands.lean ====
section
/-! DEFINITION. The host interface: the eight commands, their responses and their codes (46_host_interface.md). -/

namespace Sys2Proof.Machine

/-- The statuses a step reports (40_step_and_decode.md R116). -/
inductive Status where
  | ok
  | input
  | output
  | stopped
deriving DecidableEq, Repr

/-- The host's commands (46_host_interface.md R190). -/
inductive Command where
  | create (snapshot : List Word)
  | step
  | supplyInput (v : Word)
  | takeOutput
  | run
  | peek (a : Word)
  | isRunning
  | copy
deriving DecidableEq, Repr

/-- What a command reports to the host (46_host_interface.md R190). -/
inductive Response where
  /-- A step's status. -/
  | status (st : Status)
  /-- A recorded fault and its `fault_info`. -/
  | fault (c : Cause) (info : Word)
  /-- supply_input completed. -/
  | done
  /-- The word of take_output or peek. -/
  | value (w : Word)
  /-- The count of run. -/
  | count (n : Nat)
  /-- is_running's answer. -/
  | flag (b : Bool)
  /-- peek's address is not valid; reported, not recorded (60_exceptions.md R223). -/
  | outOfBounds (a : Word)
  /-- The new Machine of create or copy. -/
  | machine (m : State)
  /-- create made no Machine; reported, not recorded (60_exceptions.md R223). -/
  | constructionError
deriving DecidableEq, Repr

/-! ## Codes of a signal-level view -/

/-- The code of a run state (10_state.md R22). -/
def RunState.code : RunState → BitVec 2
  | .running => 0
  | .awaitingInput => 1
  | .awaitingOutput => 2
  | .stopped => 3

/-- The code of the fault register (10_state.md R24). -/
def faultCode : Option Cause → BitVec 3
  | none => 0
  | some .invalidOpcode => 1
  | some .invalidMode => 2
  | some .outOfBounds => 3
  | some .arithmeticOverflow => 4
  | some .contractViolation => 5

/-- The code of `ConstructionError`, reported only (60_exceptions.md R223). -/
def constructionErrorCode : BitVec 3 := 6

/-- The code of a status (40_step_and_decode.md R116). -/
def Status.code : Status → BitVec 2
  | .ok => 0
  | .input => 1
  | .output => 2
  | .stopped => 3

/-- The code of a command (46_host_interface.md R190). -/
def Command.code : Command → Word
  | .create _ => 0
  | .step => cmdStep
  | .supplyInput _ => cmdSupply
  | .takeOutput => cmdTake
  | .run => 4
  | .peek _ => 5
  | .isRunning => 6
  | .copy => 7

/-! ## The commands -/

/-- create: the reset of 46_host_interface.md R192; none is `ConstructionError`. -/
def create (ovf : Overflow) (snapshot : List Word) : Option State :=
  if snapshot.length = 0 ∨ Config.maxMemLen < snapshot.length then none
  else some
    { mem := Memory.ofWords 0 snapshot
      memLen := snapshot.length
      pc := 0
      runState := .running
      fault := none
      faultInfo := 0
      ovf := ovf }

/-- The status that belongs to a run state after a step (40_step_and_decode.md R116). -/
def RunState.status : RunState → Status
  | .running => .ok
  | .awaitingInput => .input
  | .awaitingOutput => .output
  | .stopped => .stopped

/-- What a step that ended in this state reports: the recorded fault if there is one, else the status (R101,
R116). -/
def State.report (s : State) : Response :=
  match s.fault with
  | some c => .fault c s.faultInfo
  | none => .status s.runState.status

/-- step (R100) with its report. -/
def stepCommand (s : State) : Option (State × Response) :=
  match step s with
  | .next t => some (t, t.report)
  | .fault r => nomatch r
  | .refused _ => none

/-- The end of a completion begun at `s` (00_scope.md R15). -/
def finishCommand (s : State) : Except Raised (State × Response) → State × Response
  | .ok p => p
  | .error r => (s.takeFault r, .fault r.cause r.info)

/-- The gates of supply_input and take_output (42_io.md R145, R146): a recorded fault is reported again, and any
run state but the command's own is a contract violation (R202). -/
def completion (own : RunState) (code : Word) (body : Except Raised (State × Response)) (s : State) :
    State × Response :=
  match s.fault with
  | some c => (s, .fault c s.faultInfo)
  | none =>
    if s.runState = own then finishCommand s body
    else finishCommand s (.error ⟨.contractViolation, code⟩)

/-- supply_input(v) (42_io.md R145). -/
def supplyInput (v : Word) (s : State) : State × Response :=
  completion .awaitingInput cmdSupply ((completeIn v s).map fun t => (t, .done)) s

/-- take_output() (42_io.md R146). -/
def takeOutput (s : State) : State × Response :=
  completion .awaitingOutput cmdTake ((completeOut s).map fun p => (p.1, .value p.2)) s

/-- The loop of `run` (R205) with `n` steps counted; no result when the bound `fuel` on its steps is used up
(70_reset_and_hazards.md R258, log entry 12). -/
def runLoop : Nat → Nat → State → Option (State × Response)
  | 0, _, _ => none
  | fuel + 1, n, s =>
    match stepCommand s with
    | none => none
    | some (t, .status .ok) => runLoop fuel (n + 1) t
    | some (t, .status _) => some (t, .count n)
    | some (t, r) => some (t, r)

/-- run() (R205), making at most `fuel` steps. -/
def run (fuel : Nat) (s : State) : Option (State × Response) :=
  match s.fault with
  | some c => some (s, .fault c s.faultInfo)
  | none => if s.runState = .running then runLoop fuel 0 s else some (s, .count 0)

/-- run() without a bound: it returns this state and response after some number of steps. A run that never
returns (R258) stands in this relation to nothing. -/
def RunsTo (s t : State) (r : Response) : Prop := ∃ fuel, run fuel s = some (t, r)

/-- peek(a): the host's read port (R206); none is a bad address. -/
def peek (a : Word) (s : State) : Option Word := if s.ValidAddr a then some (s.cell a.toNat) else none

/-- is_running() (R207). -/
def isRunning (s : State) : Bool := decide (s.runState ≠ .stopped)

/-- copy(): the second Machine (R208). -/
def copy (s : State) : State := s

/-- Any command sent to a Machine: the Machine after it and the response; none is a run that the bound cut off.
create makes a Machine of the same hardware and leaves the one addressed alone. -/
def perform (fuel : Nat) (c : Command) (s : State) : Option (State × Response) :=
  match c with
  | .create snapshot =>
    match create s.ovf snapshot with
    | some m => some (s, .machine m)
    | none => some (s, .constructionError)
  | .step => stepCommand s
  | .supplyInput v => some (supplyInput v s)
  | .takeOutput => some (takeOutput s)
  | .run => run fuel s
  | .peek a =>
    match peek a s with
    | some w => some (s, .value w)
    | none => some (s, .outOfBounds a)
  | .isRunning => some (s, .flag (isRunning s))
  | .copy => some (s, .machine (copy s))

/-- A sequence of commands to one Machine, one at a time (R191, 70_reset_and_hazards.md R254), with the responses
in order. -/
def runScript (fuel : Nat) : List Command → State → Option (State × List Response)
  | [], s => some (s, [])
  | c :: rest, s =>
    match perform fuel c s with
    | none => none
    | some (t, r) =>
      match runScript fuel rest t with
      | none => none
      | some (u, rs) => some (u, r :: rs)

end Sys2Proof.Machine
end

