-- ==== Sys2Proof/Machine/World.lean ====
section
/-! DEFINITION. Several Machines held by one host (60_exceptions.md R231, 20_memory.md R58): commands are addressed
to one of them, and create and copy add a Machine. -/

namespace Sys2Proof.Machine

/-- The Machines the host holds. -/
abbrev World := List State

/-- The first Machine, or one more: create with no Machine addressed (46_host_interface.md R192). -/
def World.create (ovf : Overflow) (w : World) (snapshot : List Word) : World × Response :=
  match Sys2Proof.Machine.create ovf snapshot with
  | some m => (w ++ [m], .machine m)
  | none => (w, .constructionError)

/-- The Machines after Machine `i` became `t` and reported `r`: a Machine made by the command joins them. -/
def World.after (w : World) (i : Nat) (t : State) : Response → World
  | .machine m => w.set i t ++ [m]
  | _ => w.set i t

/-- A command to Machine `i`; none when the host holds no such Machine or a run was cut off. -/
def World.perform (fuel : Nat) (w : World) (i : Nat) (c : Command) : Option (World × Response) :=
  match w[i]? with
  | none => none
  | some s =>
    match Sys2Proof.Machine.perform fuel c s with
    | none => none
    | some (t, r) => some (World.after w i t r, r)

end Sys2Proof.Machine
end

