-- ==== Sys2Proof/Safety.lean ====
section
/-! DEFINITION. What counts as a safe run: the invariant of the reachable states (46_host_interface.md R201 and the
bounds of the rules), and how a run ends (R209). -/

namespace Sys2Proof.Machine

/-- The bounds of memory: `MEM_LEN` is legal (00_scope.md R9) and the sparse list is in canonical form, every
listed cell within memory (20_memory.md R42). -/
structure State.MemoryOk (s : State) : Prop where
  len_pos : 1 ≤ s.memLen
  len_le : s.memLen ≤ Config.maxMemLen
  wf : Memory.wf s.mem
  inside : ∀ c ∈ s.mem, c.1 < s.memLen

/-- The word at the pc is an instruction of kind `k`, and both its cells are in memory (46_host_interface.md
R201). -/
structure State.Pends (s : State) (k : Kind) : Prop where
  pc_nonneg : 0 ≤ s.pc.toInt
  fits : s.pc.toInt + 2 ≤ s.memLen
  decodes : ∃ h, decodeWord (s.cell s.pc.toNat) = .ok ⟨k, h⟩

/-- The invariant every command keeps: memory is sound, `fault_info` is 0 until a fault is recorded (10_state.md
R24), and a Machine that awaits has a pending IN or OUT (R201). -/
structure State.Inv (s : State) : Prop where
  memory : s.MemoryOk
  no_info : s.fault = none → s.faultInfo = 0
  input : s.runState = .awaitingInput → s.Pends .inp
  output : s.runState = .awaitingOutput → s.Pends .out

/-- Finished normally (46_host_interface.md R209). -/
abbrev State.FinishedNormally (s : State) : Prop := s.runState = .stopped ∧ s.fault = none

/-- Failed (46_host_interface.md R209). -/
abbrev State.Failed (s : State) : Prop := s.fault ≠ none

/-- Suspended (46_host_interface.md R209). -/
abbrev State.Suspended (s : State) : Prop :=
  s.fault = none ∧ (s.runState = .awaitingInput ∨ s.runState = .awaitingOutput)

end Sys2Proof.Machine
end

