-- ==== Sys2Proof/Certificates/Slice0/Obligations.lean ====
section
/-! DEFINITION. The statements for the provers. How a raised fault is recorded (registers `fault` and `fault_info`,
everything else held) is the spec's own choice: 10_state.md R24 to R26 with 92_eei_decisions.md D7 and D8. Where a
statement rests on another decision of the spec, its docstring names it. -/

/-! ## The words the statements use -/

namespace Sys2Proof.Statement

open Sys2Proof.Machine

/-- Operand `raw` under mode `m` resolves to `v`. -/
abbrev Reads (s : State) (raw : Word) (m : Mode) (v : Word) : Prop :=
  (m = .position → s.ValidAddr raw ∧ v = s.cell raw.toNat) ∧ (m = .immediate → v = raw)

/-- Operand `raw` under mode `m` does not resolve: a Position operand that is no valid address. -/
abbrev Unreadable (s : State) (raw : Word) (m : Mode) : Prop := m = .position ∧ ¬s.ValidAddr raw

/-- `s` with a fault recorded and nothing else changed. -/
abbrev faulted (s : State) (c : Cause) (info : Word) : State := { s with fault := some c, faultInfo := info }

/-- `v` is representable as a signed 32-bit word. -/
abbrev Fits (v : Int) : Prop := -2147483648 ≤ v ∧ v ≤ 2147483647

/-- `t` is `s` with cell `a` holding `v`, the pc at `pc`, the run state `r`, and nothing else changed. -/
structure Wrote (s t : State) (a : Nat) (v pc : Word) (r : RunState) : Prop where
  written : t.cell a = v
  others : ∀ b, b ≠ a → t.cell b = s.cell b
  memLen : t.memLen = s.memLen
  pc : t.pc = pc
  runState : t.runState = r
  fault : t.fault = s.fault
  faultInfo : t.faultInfo = s.faultInfo
  ovf : t.ovf = s.ovf

/-- A Machine that ran without a recorded fault reports `Ok` in `t`. -/
abbrev ReportsOk (s t : State) : Prop := s.fault = none → s.runState = .running → t.report = .status .ok

/-- The words of `i` are its instruction word and its operand words, and the decimal digits of its instruction
word are its opcode, its modes and its ignored digits. -/
abbrev EncodedAs (i : Instr) (opcode : Int) (operands : List Word) : Prop :=
  ∃ w, encode i = w :: operands ∧
    (i.wellFormed → w.toInt = i.header.upper * 100000 + i.header.m3.digit * 10000 + i.header.m2.digit * 1000
      + i.header.m1.digit * 100 + opcode)

/-- The Machine has no fault, runs, and its pc names a cell. -/
abbrev Fetches (s : State) : Prop := s.fault = none ∧ s.runState = .running ∧ s.ValidAddr s.pc

/-- The words of `i` stand in memory from the pc on. -/
abbrev StoredAtPc (s : State) (i : Instr) : Prop :=
  s.pc.toInt + i.width ≤ s.memLen ∧ ∀ k < (encode i).length, s.cell (s.pc.toNat + k) = (encode i)[k]!

/-- ADD and MUL with `op` for `+` and `*`: the encoding, the faults in the order of the rule, and the result. -/
def Arithmetic (mk : Header → Word → Word → Word → Instr) (opcode : Int) (op : Int → Int → Int) : Prop :=
  ∀ (h : Header) (a b d : Word) (s : State),
    EncodedAs (mk h a b d) opcode [a, b, d] ∧
    (Unreadable s a h.m1 → exec (mk h a b d) s = .next (faulted s .outOfBounds a)) ∧
    (∀ x, Reads s a h.m1 x → Unreadable s b h.m2 → exec (mk h a b d) s = .next (faulted s .outOfBounds b)) ∧
    (∀ x y, Reads s a h.m1 x → Reads s b h.m2 y → ¬Fits (op x.toInt y.toInt) → s.ovf = .fault →
      exec (mk h a b d) s = .next (faulted s .arithmeticOverflow (encode (mk h a b d)).head!)) ∧
    (∀ x y, Reads s a h.m1 x → Reads s b h.m2 y → (Fits (op x.toInt y.toInt) ∨ s.ovf = .wrap) → ¬s.ValidAddr d →
      exec (mk h a b d) s = .next (faulted s .outOfBounds d)) ∧
    (∀ x y, Reads s a h.m1 x → Reads s b h.m2 y → (Fits (op x.toInt y.toInt) ∨ s.ovf = .wrap) → s.ValidAddr d →
      ∃ t r, exec (mk h a b d) s = .next t ∧ Wrote s t d.toNat r (s.pc + 4) s.runState ∧ ReportsOk s t ∧
        (Fits (op x.toInt y.toInt) → r.toInt = op x.toInt y.toInt) ∧
        (r.toInt - op x.toInt y.toInt) % 4294967296 = 0)

/-- LT and EQ with their test: the encoding, the faults in the order of the rule, and the result. -/
def Comparison (mk : Header → Word → Word → Word → Instr) (opcode : Int) (holds : Int → Int → Prop) : Prop :=
  ∀ (h : Header) (a b d : Word) (s : State),
    EncodedAs (mk h a b d) opcode [a, b, d] ∧
    (Unreadable s a h.m1 → exec (mk h a b d) s = .next (faulted s .outOfBounds a)) ∧
    (∀ x, Reads s a h.m1 x → Unreadable s b h.m2 → exec (mk h a b d) s = .next (faulted s .outOfBounds b)) ∧
    (∀ x y, Reads s a h.m1 x → Reads s b h.m2 y → ¬s.ValidAddr d →
      exec (mk h a b d) s = .next (faulted s .outOfBounds d)) ∧
    (∀ x y, Reads s a h.m1 x → Reads s b h.m2 y → s.ValidAddr d →
      ∃ t r, exec (mk h a b d) s = .next t ∧ Wrote s t d.toNat r (s.pc + 4) s.runState ∧ ReportsOk s t ∧
        (holds x.toInt y.toInt → r = 1) ∧ (¬holds x.toInt y.toInt → r = 0))

/-- JT and JF with their test: the encoding, the faults in the order of the rule, and the next pc. -/
def Jump (mk : Header → Word → Word → Instr) (opcode : Int) (taken : Word → Prop) : Prop :=
  ∀ (h : Header) (c p : Word) (s : State),
    EncodedAs (mk h c p) opcode [c, p] ∧
    (Unreadable s c h.m1 → exec (mk h c p) s = .next (faulted s .outOfBounds c)) ∧
    (∀ x, Reads s c h.m1 x → Unreadable s p h.m2 → exec (mk h c p) s = .next (faulted s .outOfBounds p)) ∧
    (∀ x y, Reads s c h.m1 x → Reads s p h.m2 y → taken x →
      exec (mk h c p) s = .next { s with pc := y } ∧ ReportsOk s { s with pc := y }) ∧
    (∀ x y, Reads s c h.m1 x → Reads s p h.m2 y → ¬taken x →
      exec (mk h c p) s = .next { s with pc := s.pc + 3 } ∧ ReportsOk s { s with pc := s.pc + 3 })

/-- The step phase of IN or OUT: encoding, effect, status, and the truncated instruction that stops instead. -/
def Announces (mk : Header → Word → Instr) (opcode : Int) (k : Kind) (r : RunState) (st : Status) : Prop :=
  ∀ (h : Header) (a : Word) (s : State),
    EncodedAs (mk h a) opcode [a] ∧
    exec (mk h a) s = .next { s with runState := r } ∧
    (s.fault = none → ({ s with runState := r } : State).report = .status st) ∧
    (Fetches s → decodeWord (s.cell s.pc.toNat) = .ok ⟨k, h⟩ → s.memLen < s.pc.toInt + 2 →
      step s = .next { s with runState := .stopped })

/-- The contract matrix of 46_host_interface.md R202. -/
def allowed (c : Command) (r : RunState) : Bool :=
  match c with
  | .step => decide (r = .running ∨ r = .stopped)
  | .supplyInput _ => decide (r = .awaitingInput)
  | .takeOutput => decide (r = .awaitingOutput)
  | .create _ => true
  | .run => true
  | .peek _ => true
  | .isRunning => true
  | .copy => true

/-- The From, Command and To columns of 46_host_interface.md R200: step and run may leave `Running` for any state (the
Condition column, which says when for which, is not here). -/
abbrev MayMove (c : Command) (a b : RunState) : Prop :=
  a = b ∨ (a = .running ∧ (c = .step ∨ c = .run)) ∨
    (a = .awaitingInput ∧ b = .running ∧ ∃ v, c = .supplyInput v) ∨
    (a = .awaitingOutput ∧ b = .running ∧ c = .takeOutput)

/-- `n` steps from `s` to `t`, each reporting `Ok`. -/
def OkSteps : Nat → State → State → Prop
  | 0, s, t => s = t
  | n + 1, s, t => ∃ u, stepCommand s = some (u, .status .ok) ∧ OkSteps n u t

/-- What run reports when a step ends it with this report after `n` counted steps. -/
def runReport (n : Nat) : Response → Response
  | .status _ => .count n
  | r => r

/-- The status of a step that executes an instruction of this kind without a fault. -/
def statusOf : Kind → Status
  | .inp => .input
  | .out => .output
  | .halt => .stopped
  | _ => .ok

end Sys2Proof.Statement

open Sys2Proof Sys2Proof.Machine Sys2Proof.Statement

/-! ## Encoding -/

/-- Decoding the words of a well-formed instruction, whatever words follow, gives the instruction back: every
operand word, every mode slot and the ignored digits (30_encoding.md section 6; that the ignored digits are kept is
the model's choice, log entry 8). -/
def Obligations.DecodeOfEncodeIsTheInstruction : Prop :=
  ∀ (i : Instr) (rest : List Word), i.wellFormed → decode (encode i ++ rest) = .ok i

/-- What decodes is well-formed, and the words decoded begin with its encoding: each instruction has one spelling
in the model (log entry 8). -/
def Obligations.DecodedWordsAreTheEncoding : Prop :=
  ∀ (ws : List Word) (i : Instr), decode ws = .ok i → i.wellFormed ∧ ∃ rest, ws = encode i ++ rest

/-- 30_encoding.md R75: the canonical word of every opcode and every three modes decodes to them, and is at most
11199. -/
def Obligations.CanonicalWordsRoundTrip : Prop :=
  ∀ (k : Kind) (m1 m2 m3 : Mode),
    m3.digit * 10000 + m2.digit * 1000 + m1.digit * 100 + k.opcode ≤ 11199 ∧
    decodeWord (BitVec.ofNat 32 (m3.digit * 10000 + m2.digit * 1000 + m1.digit * 100 + k.opcode))
      = .ok ⟨k, ⟨m1, m2, m3, 0⟩⟩

/-- 30_encoding.md R74 with R68 and R70: the opcode is checked first, then the three mode digits, whatever the
instruction uses. The order and the check of unused slots are the spec's decision (92_eei_decisions.md D4). -/
def Obligations.DecodeChecksOpcodeThenModes : Prop :=
  ∀ w : Word,
    (decodeWord w = .error (.invalidOpcode w) ↔
      Int.tmod w.toInt 100 ∉ ([1, 2, 3, 4, 5, 6, 7, 8, 99] : List Int)) ∧
    (decodeWord w = .error (.invalidMode w) ↔
      Int.tmod w.toInt 100 ∈ ([1, 2, 3, 4, 5, 6, 7, 8, 99] : List Int) ∧
        ¬((digit w.toInt 2 = 0 ∨ digit w.toInt 2 = 1) ∧ (digit w.toInt 3 = 0 ∨ digit w.toInt 3 = 1) ∧
          (digit w.toInt 4 = 0 ∨ digit w.toInt 4 = 1))) ∧
    (∀ k h, decodeWord w = .ok ⟨k, h⟩ →
      Int.tmod w.toInt 100 = k.opcode ∧ digit w.toInt 2 = h.m1.digit ∧ digit w.toInt 3 = h.m2.digit ∧
        digit w.toInt 4 = h.m3.digit)

/-- 30_encoding.md R71 (the spec's inference from truncating division, 92_eei_decisions.md D3): every negative word
is illegal, and it is the opcode that is reported. -/
def Obligations.NegativeWordsAreIllegalOpcodes : Prop :=
  ∀ w : Word, w.toInt < 0 → decodeWord w = .error (.invalidOpcode w)

/-- 30_encoding.md R61 and R62 (92_eei_decisions.md D23): adding multiples of 100000 to a legal word changes neither
its kind nor its modes, as long as the sum fits in a word. -/
def Obligations.HighDigitsAreIgnored : Prop :=
  ∀ (w v : Word) (q : Nat) (k : Kind) (h : Header), decodeWord w = .ok ⟨k, h⟩ →
    v.toInt = w.toInt + q * 100000 →
    ∃ h', decodeWord v = .ok ⟨k, h'⟩ ∧ h'.m1 = h.m1 ∧ h'.m2 = h.m2 ∧ h'.m3 = h.m3

/-- 30_encoding.md R63 and R66: opcode, width and parameter count of the nine kinds. The opcodes 5 to 8 are the
spec's decision (92_eei_decisions.md D20). -/
def Obligations.OpcodesWidthsAndParameterCounts : Prop :=
  ([Kind.add, .mul, .inp, .out, .jt, .jf, .lt, .eq, .halt].map fun k => (k.opcode, k.width, k.nparams)) =
    [(1, 4, 3), (2, 4, 3), (3, 2, 1), (4, 2, 1), (5, 3, 2), (6, 3, 2), (7, 4, 3), (8, 4, 3), (99, 1, 0)]

/-- Words of 95_test_vectors.md and of the rules' examples, one for each kind and the rejected ones, decode as the
spec says. -/
def Obligations.SampleWordsDecode : Prop :=
  decode [1002, 4, 3, 4, 33] = .ok (.mul ⟨.position, .immediate, .position, 0⟩ 4 3 4) ∧
  decode [11101, 2, 3, 5] = .ok (.add ⟨.immediate, .immediate, .immediate, 0⟩ 2 3 5) ∧
  decode [103, 5] = .ok (.inp ⟨.immediate, .position, .position, 0⟩ 5) ∧
  decode [4, 2] = .ok (.out ⟨.position, .position, .position, 0⟩ 2) ∧
  decode [1105, 1, 4] = .ok (.jt ⟨.immediate, .immediate, .position, 0⟩ 1 4) ∧
  decode [1006, 20, 16] = .ok (.jf ⟨.position, .immediate, .position, 0⟩ 20 16) ∧
  decode [1107, 3, 8, 5] = .ok (.lt ⟨.immediate, .immediate, .position, 0⟩ 3 8 5) ∧
  decode [108, 8, 5, 5] = .ok (.eq ⟨.immediate, .position, .position, 0⟩ 8 5 5) ∧
  decode [1000099] = .ok (.halt ⟨.position, .position, .position, 10⟩) ∧
  decode [98] = .error (.invalidOpcode 98) ∧
  decode [-1101] = .error (.invalidOpcode (-1101)) ∧
  decode [20099] = .error (.invalidMode 20099) ∧
  decode [1105, 1] = .error .truncated

/-! ## The step -/

/-- 40_step_and_decode.md R108: a step dispatches the instruction that the cells at the pc decode to; nothing is
added around it. -/
def Obligations.StepExecutesTheDecodedInstruction : Prop :=
  ∀ (s : State) (i : Instr), Fetches s → decode s.instrCells = .ok i → step s = exec i s

/-- 40_step_and_decode.md R107 and R108: where the words of a well-formed instruction stand in memory from the pc on,
a step executes that instruction with those operand words. -/
def Obligations.StepRunsTheInstructionStoredAtThePc : Prop :=
  ∀ (s : State) (i : Instr), Fetches s → i.wellFormed → StoredAtPc s i → step s = exec i s

/-- 40_step_and_decode.md R101 (92_eei_decisions.md D7): with a recorded fault, step changes nothing and reports the
fault again. -/
def Obligations.StepReportsARecordedFaultAgain : Prop :=
  ∀ (s : State) (c : Cause), s.fault = some c →
    step s = .next s ∧ stepCommand s = some (s, .fault c s.faultInfo)

/-- 40_step_and_decode.md R102: a step is a no-op on a Stopped Machine and a contract violation on one that awaits. -/
def Obligations.StepGatesOnTheRunState : Prop :=
  ∀ s : State, s.fault = none →
    (s.runState = .stopped → step s = .next s ∧ stepCommand s = some (s, .status .stopped)) ∧
    (s.runState = .awaitingInput ∨ s.runState = .awaitingOutput →
      step s = .next (faulted s .contractViolation 1) ∧
      stepCommand s = some (faulted s .contractViolation 1, .fault .contractViolation 1))

/-- 40_step_and_decode.md R103 (92_eei_decisions.md D5): a negative pc is out of bounds; a pc at or past the end stops
the Machine. -/
def Obligations.FetchOutsideMemory : Prop :=
  ∀ s : State, s.fault = none → s.runState = .running →
    (s.pc.toInt < 0 → step s = .next (faulted s .outOfBounds s.pc)) ∧
    (s.memLen ≤ s.pc.toInt → 0 ≤ s.pc.toInt → step s = .next { s with runState := .stopped })

/-- 40_step_and_decode.md R104 and R105 (92_eei_decisions.md D3, D4): a word with an illegal opcode, and one with a
legal opcode and an illegal mode digit, raise their fault with the word, whatever follows in memory. -/
def Obligations.IllegalWordsFault : Prop :=
  ∀ s : State, Fetches s →
    let w := s.cell s.pc.toNat
    (Int.tmod w.toInt 100 ∉ ([1, 2, 3, 4, 5, 6, 7, 8, 99] : List Int) →
      step s = .next (faulted s .invalidOpcode w)) ∧
    (Int.tmod w.toInt 100 ∈ ([1, 2, 3, 4, 5, 6, 7, 8, 99] : List Int) →
      (∃ k ∈ [2, 3, 4], digit w.toInt k ≠ 0 ∧ digit w.toInt k ≠ 1) →
      step s = .next (faulted s .invalidMode w))

/-- 40_step_and_decode.md R106: an instruction that needs more cells than memory has from the pc on stops the Machine
and changes nothing else; decoding comes first; HALT is never truncated. -/
def Obligations.TruncatedInstructionsStop : Prop :=
  ∀ s : State, Fetches s →
    (∀ k h, decodeWord (s.cell s.pc.toNat) = .ok ⟨k, h⟩ → s.memLen < s.pc.toInt + k.width →
      step s = .next { s with runState := .stopped } ∧
      stepCommand s = some ({ s with runState := .stopped }, .status .stopped) ∧ k ≠ .halt) ∧
    (∀ w, decodeWord (s.cell s.pc.toNat) = .error (.invalidOpcode w) →
      step s = .next (faulted s .invalidOpcode w)) ∧
    (∀ w, decodeWord (s.cell s.pc.toNat) = .error (.invalidMode w) → step s = .next (faulted s .invalidMode w))

/-- Every step from every state gives a next state: no step refuses, and every fault of 60_exceptions.md R220 is taken
(log entry 5 is the model's way of ending a faulting step). -/
def Obligations.EveryStepAnswersANextState : Prop := ∀ s : State, ∃ t, step s = .next t

/-- 40_step_and_decode.md R116 (codes: 92_eei_decisions.md D10): what a step that executes an instruction reports. -/
def Obligations.StepReportsTheStatusOfItsInstruction : Prop :=
  ∀ (s t : State) (i : Instr), Fetches s → decode s.instrCells = .ok i → step s = .next t →
    (t.fault = none → stepCommand s = some (t, .status (statusOf i.kind))) ∧
    (∀ c, t.fault = some c → stepCommand s = some (t, .fault c t.faultInfo))

/-! ## Instructions -/

/-- 41_arithmetic.md R131, ADD: encoding, faults in order, and the sum (overflow policy: 92_eei_decisions.md D2;
destination bounds: D6; order of the checks: D19). -/
def Obligations.AddStoresTheSumOrFaultsInOrder : Prop := Arithmetic .add 1 (fun x y => x + y)

/-- 41_arithmetic.md R132, MUL: encoding, faults in order, and the product (decisions D2, D6, D19 as for ADD). -/
def Obligations.MulStoresTheProductOrFaultsInOrder : Prop := Arithmetic .mul 2 (fun x y => x * y)

/-- 44_compare.md R170, LT: a signed comparison (92_eei_decisions.md D20 for the opcode, D6 and D19 as for ADD). -/
def Obligations.LtStoresTheSignedComparison : Prop := Comparison .lt 7 (fun x y => x < y)

/-- 44_compare.md R171, EQ (92_eei_decisions.md D20 for the opcode, D6 and D19 as for ADD). -/
def Obligations.EqStoresTheEquality : Prop := Comparison .eq 8 (fun x y => x = y)

/-- 43_jumps.md R161, JT (opcode: 92_eei_decisions.md D20; both operands are resolved first, D18). -/
def Obligations.JtJumpsOnNonzero : Prop := Jump .jt 5 (fun c => c.toInt ≠ 0)

/-- 43_jumps.md R162, JF (opcode: 92_eei_decisions.md D20; both operands are resolved first, D18). -/
def Obligations.JfJumpsOnZero : Prop := Jump .jf 6 (fun c => c.toInt = 0)

/-- 42_io.md R141, IN's step phase. -/
def Obligations.InAnnouncesAndHolds : Prop := Announces .inp 3 .inp .awaitingInput .input

/-- 42_io.md R142, OUT's step phase. -/
def Obligations.OutAnnouncesAndHolds : Prop := Announces .out 4 .out .awaitingOutput .output

/-- 45_stop.md R180, HALT: effect, status, and that afterwards step and run change nothing. -/
def Obligations.HaltStops : Prop :=
  (∀ (h : Header) (s : State),
    EncodedAs (.halt h) 99 [] ∧
    exec (.halt h) s = .next { s with runState := .stopped } ∧
    (s.fault = none →
      ({ s with runState := .stopped } : State).report = .status .stopped ∧
      step { s with runState := .stopped } = .next { s with runState := .stopped } ∧
      ∀ fuel, run fuel { s with runState := .stopped } = some ({ s with runState := .stopped }, .count 0))) ∧
  decodeWord 299 = .error (.invalidMode 299)

/-- 41_arithmetic.md R130 (92_eei_decisions.md D2): the result of the arithmetic core under both policies. -/
def Obligations.FitFollowsTheOverflowPolicy : Prop :=
  ∀ (ovf : Overflow) (w : Word) (v : Int),
    (Fits v → ∃ r, fit ovf w v = .ok r ∧ r.toInt = v) ∧
    (¬Fits v → ovf = .fault → fit ovf w v = .error ⟨.arithmeticOverflow, w⟩) ∧
    (¬Fits v → ovf = .wrap → ∃ r, fit ovf w v = .ok r ∧ (r.toInt - v) % 4294967296 = 0)

/-- 60_exceptions.md R220 (92_eei_decisions.md D2): the overflow that a step records carries the very word it
fetched, ignored digits included (log entry 9). -/
def Obligations.OverflowRecordsTheFetchedWord : Prop :=
  ∀ (s t : State), Fetches s → step s = .next t → t.fault = some .arithmeticOverflow →
    t.faultInfo = s.cell s.pc.toNat ∧ s.ovf = .fault

/-- The frame of the storing instructions (41_arithmetic.md, 44_compare.md): whatever happens, only the cell that
raw operand 3 names can change; the run state and the parameters stay; and either no fault is recorded or nothing but
the fault registers changes. -/
def Obligations.StoringInstructionsFrame : Prop :=
  ∀ (h : Header) (a b d : Word) (s t : State),
    ∀ i ∈ [Instr.add h a b d, .mul h a b d, .lt h a b d, .eq h a b d], exec i s = .next t →
      (∀ c, c ≠ d.toNat → t.cell c = s.cell c) ∧ (¬s.ValidAddr d → t.mem = s.mem) ∧
      t.runState = s.runState ∧ t.memLen = s.memLen ∧ t.ovf = s.ovf ∧
      ((t.fault = s.fault ∧ t.faultInfo = s.faultInfo ∧ t.pc = s.pc + 4) ∨
        ∃ cause info, t = faulted s cause info)

/-- The frame of the instructions that store nothing (42_io.md, 43_jumps.md, 45_stop.md): every cell stays; IN, OUT
and HALT change the run state alone; JT and JF change the pc, or else the fault registers, alone. -/
def Obligations.NonStoringInstructionsFrame : Prop :=
  ∀ (h : Header) (a b : Word) (s t : State),
    (∀ i ∈ [Instr.inp h a, .out h a, .halt h], exec i s = .next t →
      (∀ c, t.cell c = s.cell c) ∧ t = { s with runState := t.runState }) ∧
    (∀ i ∈ [Instr.jt h a b, .jf h a b], exec i s = .next t →
      (∀ c, t.cell c = s.cell c) ∧ (t = { s with pc := t.pc } ∨ ∃ cause info, t = faulted s cause info))

/-! ## Memory and pc -/

/-- 20_memory.md R43: a read checks its bounds. -/
def Obligations.ReadsCheckTheirBounds : Prop :=
  ∀ (s : State) (a : Word),
    (a.toInt < 0 ∨ s.memLen ≤ a.toInt → memRead s a = .error ⟨.outOfBounds, a⟩) ∧
    (0 ≤ a.toInt → a.toInt < s.memLen → memRead s a = .ok (s.cell a.toNat))

/-- 20_memory.md R44 and R51 (92_eei_decisions.md D6): a write checks its bounds, and afterwards the cell reads as
written and every other address as before. -/
def Obligations.ReadsSeeTheLastWrite : Prop :=
  ∀ (s : State) (a v : Word),
    (a.toInt < 0 ∨ s.memLen ≤ a.toInt → memWrite s a v = .error ⟨.outOfBounds, a⟩) ∧
    (0 ≤ a.toInt → a.toInt < s.memLen → ∃ t, memWrite s a v = .ok t ∧ memRead t a = .ok v ∧
      ∀ b, b ≠ a → memRead t b = memRead s b)

/-- 20_memory.md R41: MEM_LEN is the snapshot's length and no command changes it (nor the policy `OVF`). -/
def Obligations.MemoryLengthNeverChanges : Prop :=
  (∀ (ovf : Overflow) (ws : List Word) (m : State), create ovf ws = some m → m.memLen = ws.length) ∧
  ∀ (fuel : Nat) (c : Command) (s t : State) (r : Response), perform fuel c s = some (t, r) →
    t.memLen = s.memLen ∧ t.ovf = s.ovf

/-- 46_host_interface.md R190 (codes: 92_eei_decisions.md D10): memory changes only through supply_input and through a
step that executes ADD, MUL, LT or EQ (run is a sequence of steps). -/
def Obligations.OnlyStoresAndInputWriteMemory : Prop :=
  (∀ (fuel : Nat) (c : Command) (s t : State) (r : Response), perform fuel c s = some (t, r) →
    c ≠ .step → c ≠ .run → (∀ v, c ≠ .supplyInput v) → t.mem = s.mem) ∧
  (∀ s t : State, step s = .next t → t.mem ≠ s.mem →
    ∃ i, decode s.instrCells = .ok i ∧ i.kind ∈ [Kind.add, .mul, .lt, .eq])

/-- 40_step_and_decode.md R113: the pc multiplexer. A step, supply_input and take_output write no pc but hold,
sequential, target or completion, each only where the table says. -/
def Obligations.PcTakesOnlyTheMultiplexerInputs : Prop :=
  (∀ s t : State, step s = .next t → t.pc ≠ s.pc →
    t.fault = none ∧ t.runState = .running ∧ ∃ i, decode s.instrCells = .ok i ∧
      ((i.kind ∈ [Kind.add, .mul, .lt, .eq] ∧ t.pc = s.pc + 4) ∨
       (i.kind ∈ [Kind.jt, .jf] ∧ (t.pc = s.pc + 3 ∨
          ∃ p, i.operands[1]? = some p ∧ Reads s p i.header.m2 t.pc)))) ∧
  (∀ (v : Word) (s : State), (supplyInput v s).1.pc = s.pc ∨
    ((supplyInput v s).2 = .done ∧ (supplyInput v s).1.pc = s.pc + 2)) ∧
  (∀ s : State, (takeOutput s).1.pc = s.pc ∨
    ((∃ x, (takeOutput s).2 = .value x) ∧ (takeOutput s).1.pc = s.pc + 2))

/-- 40_step_and_decode.md R114 (the spec's inference): in a state that meets the invariant, the advance past a decoded
instruction does not wrap and ends at most at MEM_LEN. -/
def Obligations.SequentialAdvanceNeverWraps : Prop :=
  ∀ (s : State) (i : Instr), s.Inv → s.ValidAddr s.pc → decode s.instrCells = .ok i →
    (s.advance i.width).pc.toInt = s.pc.toInt + i.width ∧ s.pc.toInt + i.width ≤ s.memLen

/-! ## Reset and the invariant -/

/-- 46_host_interface.md R192 and 70_reset_and_hazards.md R250 (92_eei_decisions.md D7, D13): when create makes a
Machine, and every value of it. -/
def Obligations.CreateGivesTheResetState : Prop :=
  ∀ (ovf : Overflow) (ws : List Word),
    (create ovf ws = none ↔ ws.length = 0 ∨ 2147483647 < ws.length) ∧
    ∀ m, create ovf ws = some m →
      (∀ k < ws.length, m.cell k = ws[k]!) ∧ m.memLen = ws.length ∧ m.pc = 0 ∧ m.runState = .running ∧
        m.fault = none ∧ m.faultInfo = 0 ∧ m.ovf = ovf ∧ m.Inv

/-- The model's choice, log entry 3: a snapshot of zeros of any legal length gives `State.reset` but for the length;
`State.reset` has the largest. -/
def Obligations.ResetIsCreateOfZeros : Prop :=
  State.reset.memLen = 2147483647 ∧
  ∀ n : Nat, 1 ≤ n → n ≤ 2147483647 → create Config.ovf (List.replicate n 0) = some { State.reset with memLen := n }

/-- The invariant holds at reset (its memory clause rests on the model's reset memory, log entry 3). -/
def Obligations.ResetMeetsTheInvariant : Prop := State.reset.Inv

/-- 46_host_interface.md R201 (the spec's inference) with the bounds of memory: every step keeps the invariant. -/
def Obligations.EveryStepKeepsTheInvariant : Prop := ∀ s t : State, s.Inv → step s = .next t → t.Inv

/-- The same for every host command, and the Machines that create and copy make meet it too. -/
def Obligations.EveryCommandKeepsTheInvariant : Prop :=
  ∀ (fuel : Nat) (c : Command) (s t : State) (r : Response), s.Inv → perform fuel c s = some (t, r) →
    t.Inv ∧ ∀ m, r = .machine m → m.Inv

/-! ## The host interface -/

/-- 42_io.md R145, supply_input: its gates, its fault, and its effect for both destination modes. A pending IN is what
the invariant says of a Machine that awaits input (R144, R201). -/
def Obligations.SupplyInputCompletesIn : Prop :=
  ∀ (v : Word) (s : State),
    (∀ c, s.fault = some c → supplyInput v s = (s, .fault c s.faultInfo)) ∧
    (s.fault = none → s.runState ≠ .awaitingInput →
      supplyInput v s = (faulted s .contractViolation 2, .fault .contractViolation 2)) ∧
    (∀ h, s.fault = none → s.runState = .awaitingInput → s.Inv →
      decodeWord (s.cell s.pc.toNat) = .ok ⟨.inp, h⟩ →
      let raw1 := s.cell (s.pc.toNat + 1)
      (h.m1 = .position → ¬s.ValidAddr raw1 →
        supplyInput v s = (faulted s .outOfBounds raw1, .fault .outOfBounds raw1)) ∧
      (h.m1 = .position → s.ValidAddr raw1 →
        ∃ t, supplyInput v s = (t, .done) ∧ Wrote s t raw1.toNat v (s.pc + 2) .running) ∧
      (h.m1 = .immediate →
        ∃ t, supplyInput v s = (t, .done) ∧ Wrote s t (s.pc.toNat + 1) v (s.pc + 2) .running))

/-- 42_io.md R146, take_output: its gates, its fault, and its effect. Memory is not written. -/
def Obligations.TakeOutputCompletesOut : Prop :=
  ∀ s : State,
    (∀ c, s.fault = some c → takeOutput s = (s, .fault c s.faultInfo)) ∧
    (s.fault = none → s.runState ≠ .awaitingOutput →
      takeOutput s = (faulted s .contractViolation 3, .fault .contractViolation 3)) ∧
    (∀ h, s.fault = none → s.runState = .awaitingOutput → s.Inv →
      decodeWord (s.cell s.pc.toNat) = .ok ⟨.out, h⟩ →
      let raw1 := s.cell (s.pc.toNat + 1)
      (Unreadable s raw1 h.m1 → takeOutput s = (faulted s .outOfBounds raw1, .fault .outOfBounds raw1)) ∧
      (∀ x, Reads s raw1 h.m1 x →
        takeOutput s = ({ s with pc := s.pc + 2, runState := .running }, .value x)))

/-- 42_io.md R147 (the spec's inference): after a take_output that yielded a value, another one before any step is a
contract violation. -/
def Obligations.SecondTakeOutputIsAViolation : Prop :=
  ∀ (s : State) (x : Word), (takeOutput s).2 = .value x →
    takeOutput (takeOutput s).1 =
      (faulted (takeOutput s).1 .contractViolation 3, .fault .contractViolation 3)

/-- 46_host_interface.md R202 (92_eei_decisions.md D8): a command on a Machine without a fault is answered with a
contract violation exactly where the matrix forbids it, and it records the command's code. -/
def Obligations.ContractMatrixDecidesViolations : Prop :=
  ∀ (fuel : Nat) (c : Command) (s t : State) (r : Response), s.fault = none → perform fuel c s = some (t, r) →
    ((∃ info, r = .fault .contractViolation info) ↔ allowed c s.runState = false) ∧
    (allowed c s.runState = false →
      t = faulted s .contractViolation c.code ∧ r = .fault .contractViolation c.code)

/-- The From, Command and To columns of 46_host_interface.md R200 (the spec's inference), and no more: only step and run
move `run_state` from `Running`, to whichever state; supply_input moves it only from `AwaitingInput` to `Running`,
take_output only from `AwaitingOutput` to `Running`; no other command moves it, and nothing moves it from `Stopped`. The
Condition column is no part of this statement. -/
def Obligations.RunStateMovesOnlyFromTheListedStatesByTheListedCommands : Prop :=
  ∀ (fuel : Nat) (c : Command) (s t : State) (r : Response), perform fuel c s = some (t, r) →
    MayMove c s.runState t.runState

/-- 10_state.md R23: Stopped is terminal. No command moves a Stopped Machine or changes its memory or pc, and
supply_input and take_output raise ContractViolation. -/
def Obligations.StoppedIsTerminal : Prop :=
  ∀ (fuel : Nat) (c : Command) (s t : State) (r : Response), s.runState = .stopped →
    perform fuel c s = some (t, r) →
    t.runState = .stopped ∧ t.mem = s.mem ∧ t.pc = s.pc ∧
    (s.fault = none → (∃ v, c = .supplyInput v) ∨ c = .takeOutput →
      t = faulted s .contractViolation c.code ∧ r = .fault .contractViolation c.code) ∧
    (s.fault = none → c = .step → r = .status .stopped) ∧ (s.fault = none → c = .run → r = .count 0)

/-- 10_state.md R25 (92_eei_decisions.md D7): a recorded fault is sticky. No command changes anything, and step,
supply_input, take_output and run report it again. -/
def Obligations.RecordedFaultIsSticky : Prop :=
  ∀ (fuel : Nat) (c : Command) (s t : State) (r : Response) (f : Cause), s.fault = some f →
    perform fuel c s = some (t, r) →
    t = s ∧ (c = .step ∨ (∃ v, c = .supplyInput v) ∨ c = .takeOutput ∨ c = .run → r = .fault f s.faultInfo)

/-- 10_state.md R26 and 60_exceptions.md R225 (92_eei_decisions.md D7): a command that reports a fault has recorded it
and changed nothing else, and one that reports none has left the fault registers alone. run is a sequence of steps. -/
def Obligations.FaultsArePrecise : Prop :=
  ∀ (fuel : Nat) (c : Command) (s t : State) (r : Response), c ≠ .run → perform fuel c s = some (t, r) →
    (∀ f info, r = .fault f info → t = faulted s f info) ∧
    ((∀ f info, r ≠ .fault f info) → t.fault = s.fault ∧ t.faultInfo = s.faultInfo)

/-- 46_host_interface.md R205 (92_eei_decisions.md D17): what run returns, without a bound on its steps. A run ends
exactly at the first step that does not report `Ok`; that step has taken effect and is not counted. -/
def Obligations.RunCountsItsOkSteps : Prop :=
  ∀ (s t : State) (r : Response),
    (∀ f, s.fault = some f → (RunsTo s t r ↔ t = s ∧ r = .fault f s.faultInfo)) ∧
    (s.fault = none → s.runState ≠ .running → (RunsTo s t r ↔ t = s ∧ r = .count 0)) ∧
    (s.fault = none → s.runState = .running →
      (RunsTo s t r ↔ ∃ n u r', OkSteps n s u ∧ stepCommand u = some (t, r') ∧ r' ≠ .status .ok ∧
        r = runReport n r'))

/-- The result of run is unique: the bound of the model's `run` (log entry 12) decides only whether there is one. -/
def Obligations.RunResultIsUnique : Prop :=
  ∀ (s t t' : State) (r r' : Response), RunsTo s t r → RunsTo s t' r' → t = t' ∧ r = r'

/-- 70_reset_and_hazards.md R258: a jump whose target is its own address and whose condition holds never ends; run has
no result, under any bound. -/
def Obligations.SelfLoopNeverReturns : Prop :=
  ∀ (s : State) (h : Header) (c x : Word), Fetches s → h.upper ≤ Config.maxUpper → h.m2 = .immediate →
    Reads s c h.m1 x →
    (StoredAtPc s (.jt h c s.pc) → x.toInt ≠ 0 → ∀ fuel, run fuel s = none) ∧
    (StoredAtPc s (.jf h c s.pc) → x.toInt = 0 → ∀ fuel, run fuel s = none)

/-- 46_host_interface.md R206 (92_eei_decisions.md D9) and R208 (D21): peek and copy change nothing, whatever is
recorded; a bad peek address is reported only; a copy equals the original. -/
def Obligations.PeekAndCopyOnlyObserve : Prop :=
  ∀ (fuel : Nat) (s : State) (a : Word),
    (s.ValidAddr a → perform fuel (.peek a) s = some (s, .value (s.cell a.toNat))) ∧
    (¬s.ValidAddr a → perform fuel (.peek a) s = some (s, .outOfBounds a)) ∧
    perform fuel .copy s = some (s, .machine s)

/-- 46_host_interface.md R207: is_running is true exactly when the run state is not Stopped, in every state, and
changes nothing. -/
def Obligations.IsRunningMeansNotStopped : Prop :=
  ∀ (fuel : Nat) (s : State), ∃ b, perform fuel .isRunning s = some (s, .flag b) ∧
    (b = true ↔ s.runState ≠ .stopped)

/-- 20_memory.md R58: Machines share nothing. A command to one of them leaves every other as it was, and a copy joins
them with the state of the original. -/
def Obligations.CommandsLeaveOtherMachinesAlone : Prop :=
  ∀ (fuel : Nat) (w w' : World) (i : Nat) (c : Command) (r : Response), World.perform fuel w i c = some (w', r) →
    (∀ j, j ≠ i → j < w.length → w'[j]? = w[j]?) ∧
    (c = .copy → ∃ s, w[i]? = some s ∧ w' = w ++ [s])

/-- The numeric codes of a signal-level view (the spec's own choice, 92_eei_decisions.md D10). -/
def Obligations.NumericCodes : Prop :=
  ([RunState.running, .awaitingInput, .awaitingOutput, .stopped].map RunState.code = [0, 1, 2, 3]) ∧
  ([Status.ok, .input, .output, .stopped].map Status.code = [0, 1, 2, 3]) ∧
  ([none, some Cause.invalidOpcode, some .invalidMode, some .outOfBounds, some .arithmeticOverflow,
    some .contractViolation].map faultCode = [0, 1, 2, 3, 4, 5]) ∧ constructionErrorCode = 6 ∧
  ([Command.create [], .step, .supplyInput 0, .takeOutput, .run, .peek 0, .isRunning, .copy].map Command.code
    = [0, 1, 2, 3, 4, 5, 6, 7])
end

