-- ==== Sys2Proof/Laws/Decode.lean ====
section
/-! SUPPORT. The decoder's parts: digits, opcode dispatch, modes, assembling. -/

namespace Sys2Proof

/-! ## Digits -/

theorem truncRem_ofNat (a b : Nat) : truncRem a b = ((a % b : Nat) : Int) := rfl

theorem truncDiv_ofNat (a b : Nat) : truncDiv a b = ((a / b : Nat) : Int) := rfl

theorem digit_ofNat (v k : Nat) : digit v k = ((v / 10 ^ k % 10 : Nat) : Int) := by
  have : truncDiv (v : Int) (10 ^ k) = ((v / 10 ^ k : Nat) : Int) := by
    rw [show (10 : Int) ^ k = ((10 ^ k : Nat) : Int) by push_cast; rfl]; rfl
  rw [digit, this]; rfl

/-- The remainder of a negative number is not positive. -/
theorem truncRem_neg {a : Int} (b : Int) (h : a < 0) : truncRem a b ≤ 0 := by
  have : 0 ≤ (-a).tmod b := Int.tmod_nonneg b (by omega)
  rw [Int.neg_tmod] at this
  unfold truncRem
  omega

/-! ## Opcode dispatch and modes -/

theorem Kind.opcode_range (k : Kind) : 1 ≤ k.opcode ∧ k.opcode ≤ 99 := by cases k <;> decide

@[simp] theorem Kind.ofOpcode_opcode (k : Kind) : Kind.ofOpcode k.opcode = some k := by cases k <;> rfl

theorem Kind.ofOpcode_some {op : Int} {k : Kind} (h : Kind.ofOpcode op = some k) : op = k.opcode := by
  unfold Kind.ofOpcode at h
  repeat' split at h
  all_goals first | (cases h; assumption) | cases h

theorem Kind.ofOpcode_nonpos {op : Int} (h : op ≤ 0) : Kind.ofOpcode op = none := by
  cases hk : Kind.ofOpcode op with
  | none => rfl
  | some k =>
    have := Kind.ofOpcode_some hk
    have := k.opcode_range
    omega

@[simp] theorem Mode.ofDigit_digit (m : Mode) : Mode.ofDigit m.digit = some m := by cases m <;> rfl

theorem Mode.ofDigit_some {n : Int} {m : Mode} (h : Mode.ofDigit n = some m) : n = m.digit := by
  unfold Mode.ofDigit at h
  repeat' split at h
  all_goals first | (cases h; assumption) | cases h

theorem Mode.digit_le (m : Mode) : m.digit ≤ 1 := by cases m <;> decide

/-! ## Instruction words -/

/-- A word that is not negative has the same value read as signed and as unsigned. -/
theorem toNat_of_nonneg {w : Word} (h : 0 ≤ w.toInt) : (w.toNat : Int) = w.toInt := by
  have := w.isLt
  rw [BitVec.toInt_eq_toNat_cond] at h ⊢
  split
  · rfl
  · simp_all
    omega

/-- The word of a well-formed instruction is not negative and is worth `headerValue`. -/
theorem headerWord_toInt {k : Kind} {h : Header} (hu : h.upper ≤ Config.maxUpper) :
    (headerWord k h).toInt = (headerValue k h : Int) := by
  have := k.opcode_range
  have := h.m1.digit_le
  have := h.m2.digit_le
  have := h.m3.digit_le
  have hu : h.upper ≤ 21474 := hu
  have hv : headerValue k h < 2147483648 := by unfold headerValue; omega
  unfold headerWord
  rw [BitVec.toInt_ofNat', Int.bmod_def]
  norm_num
  omega

/-- The digits of a header's value are its fields. -/
theorem headerValue_digits (k : Kind) (h : Header) :
    headerValue k h % 100 = k.opcode ∧ headerValue k h / 100 % 10 = h.m1.digit ∧
      headerValue k h / 1000 % 10 = h.m2.digit ∧ headerValue k h / 10000 % 10 = h.m3.digit ∧
      headerValue k h / 100000 = h.upper := by
  have := k.opcode_range
  have := h.m1.digit_le
  have := h.m2.digit_le
  have := h.m3.digit_le
  unfold headerValue
  omega

/-- A number is the value of the header its digits name. -/
theorem headerValue_of_digits {k : Kind} {h : Header} {v : Nat} (h0 : v % 100 = k.opcode)
    (h1 : v / 100 % 10 = h.m1.digit) (h2 : v / 1000 % 10 = h.m2.digit) (h3 : v / 10000 % 10 = h.m3.digit)
    (h4 : v / 100000 = h.upper) : v = headerValue k h := by
  unfold headerValue
  omega

/-- What a word decodes to, read off its digits. -/
theorem decodeWord_ok {w : Word} {d : Decoded} (h : decodeWord w = .ok d) :
    truncRem w.toInt 100 = d.kind.opcode ∧ digit w.toInt 2 = d.header.m1.digit ∧
      digit w.toInt 3 = d.header.m2.digit ∧ digit w.toInt 4 = d.header.m3.digit ∧
      d.header.upper = (truncDiv w.toInt 100000).toNat := by
  unfold decodeWord at h
  split at h
  · cases h
  rename_i k hk
  split at h
  · rename_i m1 m2 m3 h1 h2 h3
    cases h
    exact ⟨Kind.ofOpcode_some hk, Mode.ofDigit_some h1, Mode.ofDigit_some h2, Mode.ofDigit_some h3, rfl⟩
  · cases h

/-- A word that decodes is not negative. -/
theorem decodeWord_ok_nonneg {w : Word} {d : Decoded} (h : decodeWord w = .ok d) : 0 ≤ w.toInt := by
  by_contra hn
  have := truncRem_neg 100 (a := w.toInt) (by omega)
  have := (decodeWord_ok h).1
  have := d.kind.opcode_range
  omega

/-- A rejected word is rejected as itself, and never as truncated. -/
theorem decodeWord_error {w : Word} {e : Reject} (h : decodeWord w = .error e) :
    e = .invalidOpcode w ∨ e = .invalidMode w := by
  unfold decodeWord at h
  split at h
  · cases h; exact .inl rfl
  · split at h
    · cases h
    · cases h; exact .inr rfl

/-! ## Assembling -/

/-- What assembling gives: an instruction of that kind and header whose operands are the first words. -/
theorem assemble_some {h : Header} {k : Kind} {ws : List Word} {i : Instr} (ha : assemble h k ws = some i) :
    i.kind = k ∧ i.header = h ∧ ∃ rest, ws = i.operands ++ rest := by
  cases k <;> rcases ws with _ | ⟨a, _ | ⟨b, _ | ⟨d, rest⟩⟩⟩ <;> simp [assemble] at ha <;> subst ha <;>
    exact ⟨rfl, rfl, _, rfl⟩

/-- Enough words assemble. -/
theorem assemble_operands (i : Instr) (rest : List Word) :
    assemble i.header i.kind (i.operands ++ rest) = some i := by cases i <;> rfl

theorem operands_length (i : Instr) : i.operands.length = i.kind.nparams := by cases i <;> rfl

/-- Assembling fails exactly when words are missing. -/
theorem assemble_none {h : Header} {k : Kind} {ws : List Word} :
    assemble h k ws = none ↔ ws.length < k.nparams := by
  cases k <;> rcases ws with _ | ⟨a, _ | ⟨b, _ | ⟨d, rest⟩⟩⟩ <;>
    simp [assemble, Kind.nparams, Kind.width]

/-- A list that decodes begins with a word that decodes to the instruction's kind and header. -/
theorem decode_ok {ws : List Word} {i : Instr} (h : decode ws = .ok i) :
    ∃ w rest, ws = w :: (i.operands ++ rest) ∧ decodeWord w = .ok ⟨i.kind, i.header⟩ := by
  cases ws with
  | nil => cases h
  | cons w tail =>
    simp only [decode] at h
    split at h
    · cases h
    rename_i d hd
    split at h
    · rename_i j hj
      cases h
      obtain ⟨hk, hh, rest, rfl⟩ := assemble_some hj
      exact ⟨w, rest, rfl, by rw [hd, hk, hh]⟩
    · cases h

end Sys2Proof
end

