-- ==== Sys2Proof/Laws/State.lean ====
section
/-! SUPPORT. One lemma per field and update of the state. -/

namespace Sys2Proof.Machine

/-! ## `State.storeCell` -/

@[simp] theorem State.storeCell_mem (s : State) (a : Nat) (v : Word) : (s.storeCell a v).mem = Memory.store s.mem a v := rfl
@[simp] theorem State.storeCell_memLen (s : State) (a : Nat) (v : Word) : (s.storeCell a v).memLen = s.memLen := rfl
@[simp] theorem State.storeCell_pc (s : State) (a : Nat) (v : Word) : (s.storeCell a v).pc = s.pc := rfl
@[simp] theorem State.storeCell_runState (s : State) (a : Nat) (v : Word) : (s.storeCell a v).runState = s.runState := rfl
@[simp] theorem State.storeCell_fault (s : State) (a : Nat) (v : Word) : (s.storeCell a v).fault = s.fault := rfl
@[simp] theorem State.storeCell_faultInfo (s : State) (a : Nat) (v : Word) : (s.storeCell a v).faultInfo = s.faultInfo := rfl
@[simp] theorem State.storeCell_ovf (s : State) (a : Nat) (v : Word) : (s.storeCell a v).ovf = s.ovf := rfl

/-! ## `State.setPc` -/

@[simp] theorem State.setPc_mem (s : State) (t : Word) : (s.setPc t).mem = s.mem := rfl
@[simp] theorem State.setPc_memLen (s : State) (t : Word) : (s.setPc t).memLen = s.memLen := rfl
@[simp] theorem State.setPc_pc (s : State) (t : Word) : (s.setPc t).pc = t := rfl
@[simp] theorem State.setPc_runState (s : State) (t : Word) : (s.setPc t).runState = s.runState := rfl
@[simp] theorem State.setPc_fault (s : State) (t : Word) : (s.setPc t).fault = s.fault := rfl
@[simp] theorem State.setPc_faultInfo (s : State) (t : Word) : (s.setPc t).faultInfo = s.faultInfo := rfl
@[simp] theorem State.setPc_ovf (s : State) (t : Word) : (s.setPc t).ovf = s.ovf := rfl

/-! ## `State.advance` -/

@[simp] theorem State.advance_mem (s : State) (n : Nat) : (s.advance n).mem = s.mem := rfl
@[simp] theorem State.advance_memLen (s : State) (n : Nat) : (s.advance n).memLen = s.memLen := rfl
@[simp] theorem State.advance_pc (s : State) (n : Nat) : (s.advance n).pc = s.pc + BitVec.ofNat 32 n := rfl
@[simp] theorem State.advance_runState (s : State) (n : Nat) : (s.advance n).runState = s.runState := rfl
@[simp] theorem State.advance_fault (s : State) (n : Nat) : (s.advance n).fault = s.fault := rfl
@[simp] theorem State.advance_faultInfo (s : State) (n : Nat) : (s.advance n).faultInfo = s.faultInfo := rfl
@[simp] theorem State.advance_ovf (s : State) (n : Nat) : (s.advance n).ovf = s.ovf := rfl

/-! ## `State.setRunState` -/

@[simp] theorem State.setRunState_mem (s : State) (r : RunState) : (s.setRunState r).mem = s.mem := rfl
@[simp] theorem State.setRunState_memLen (s : State) (r : RunState) : (s.setRunState r).memLen = s.memLen := rfl
@[simp] theorem State.setRunState_pc (s : State) (r : RunState) : (s.setRunState r).pc = s.pc := rfl
@[simp] theorem State.setRunState_runState (s : State) (r : RunState) : (s.setRunState r).runState = r := rfl
@[simp] theorem State.setRunState_fault (s : State) (r : RunState) : (s.setRunState r).fault = s.fault := rfl
@[simp] theorem State.setRunState_faultInfo (s : State) (r : RunState) : (s.setRunState r).faultInfo = s.faultInfo := rfl
@[simp] theorem State.setRunState_ovf (s : State) (r : RunState) : (s.setRunState r).ovf = s.ovf := rfl

/-! ## `State.takeFault` -/

@[simp] theorem State.takeFault_mem (s : State) (r : Raised) : (s.takeFault r).mem = s.mem := rfl
@[simp] theorem State.takeFault_memLen (s : State) (r : Raised) : (s.takeFault r).memLen = s.memLen := rfl
@[simp] theorem State.takeFault_pc (s : State) (r : Raised) : (s.takeFault r).pc = s.pc := rfl
@[simp] theorem State.takeFault_runState (s : State) (r : Raised) : (s.takeFault r).runState = s.runState := rfl
@[simp] theorem State.takeFault_fault (s : State) (r : Raised) : (s.takeFault r).fault = some r.cause := rfl
@[simp] theorem State.takeFault_faultInfo (s : State) (r : Raised) : (s.takeFault r).faultInfo = r.info := rfl
@[simp] theorem State.takeFault_ovf (s : State) (r : Raised) : (s.takeFault r).ovf = s.ovf := rfl

end Sys2Proof.Machine
end

