-- ==== Sys2Proof/Laws/Memory.lean ====
section
/-! SUPPORT. Memory: read after write, the canonical form and its uniqueness, the initial snapshot. -/

namespace Sys2Proof.Machine

/-! ## Read after write -/

theorem Memory.lookup_eq_unlisted {m : Memory} {a : Nat} (h : ∀ c ∈ m, c.1 ≠ a) :
    Memory.lookup m a = Config.unlistedCell := by
  induction m with
  | nil => rfl
  | cons c rest ih =>
    have hc : a ≠ c.1 := fun e => h c (by simp) e.symm
    simp only [Memory.lookup, if_neg hc]
    exact ih fun e he => h e (by simp [he])

theorem Memory.erase_ne {m : Memory} {a : Nat} {c : Nat × Word} (h : c ∈ Memory.erase m a) : c.1 ≠ a := by
  simpa using (List.mem_filter.1 h).2

theorem Memory.erase_subset {m : Memory} {a : Nat} {c : Nat × Word} (h : c ∈ Memory.erase m a) : c ∈ m :=
  (List.mem_filter.1 h).1

theorem Memory.lookup_erase_same (m : Memory) (a : Nat) :
    Memory.lookup (Memory.erase m a) a = Config.unlistedCell :=
  Memory.lookup_eq_unlisted fun _ => Memory.erase_ne

theorem Memory.lookup_erase_other (m : Memory) {a b : Nat} (h : b ≠ a) :
    Memory.lookup (Memory.erase m a) b = Memory.lookup m b := by
  induction m with
  | nil => rfl
  | cons c rest ih =>
    obtain ⟨k, w⟩ := c
    by_cases hk : k = a
    · have hb : b ≠ k := by omega
      simpa [Memory.erase, Memory.lookup, hk, hb, h] using ih
    · by_cases hb : b = k
      · simp [Memory.erase, Memory.lookup, hk, hb]
      · simpa [Memory.erase, Memory.lookup, hk, hb] using ih

theorem Memory.lookup_insert_same {m : Memory} {a : Nat} (v : Word) (h : ∀ c ∈ m, c.1 ≠ a) :
    Memory.lookup (Memory.insert a v m) a = v := by
  induction m with
  | nil => simp [Memory.insert, Memory.lookup]
  | cons c rest ih =>
    obtain ⟨k, w⟩ := c
    have hk : a ≠ k := fun e => h (k, w) (by simp) e.symm
    by_cases hlt : a < k
    · simp [Memory.insert, Memory.lookup, hlt]
    · simpa [Memory.insert, Memory.lookup, hlt, hk] using ih fun e he => h e (by simp [he])

theorem Memory.lookup_insert_other (m : Memory) {a b : Nat} (v : Word) (h : b ≠ a) :
    Memory.lookup (Memory.insert a v m) b = Memory.lookup m b := by
  induction m with
  | nil => simp [Memory.insert, Memory.lookup, h]
  | cons c rest ih =>
    obtain ⟨k, w⟩ := c
    by_cases hlt : a < k
    · simp [Memory.insert, Memory.lookup, hlt, h]
    · by_cases hb : b = k
      · simp [Memory.insert, Memory.lookup, hlt, hb]
      · simpa [Memory.insert, Memory.lookup, hlt, hb] using ih

/-- Read after write. -/
theorem Memory.lookup_store (m : Memory) (a : Nat) (v : Word) (b : Nat) :
    Memory.lookup (Memory.store m a v) b = if b = a then v else Memory.lookup m b := by
  unfold Memory.store
  split
  · rename_i hv
    by_cases hb : b = a
    · subst hb; simp [Memory.lookup_erase_same, hv]
    · simp [hb, Memory.lookup_erase_other m hb]
  · by_cases hb : b = a
    · subst hb; simp [Memory.lookup_insert_same v fun _ => Memory.erase_ne]
    · simp [hb, Memory.lookup_insert_other _ v hb, Memory.lookup_erase_other m hb]

@[simp] theorem State.cell_storeCell (s : State) (a : Nat) (v : Word) (b : Nat) :
    (s.storeCell a v).cell b = if b = a then v else s.cell b := Memory.lookup_store s.mem a v b

@[simp] theorem State.cell_setPc (s : State) (t : Word) (b : Nat) : (s.setPc t).cell b = s.cell b := rfl
@[simp] theorem State.cell_advance (s : State) (n : Nat) (b : Nat) : (s.advance n).cell b = s.cell b := rfl
@[simp] theorem State.cell_setRunState (s : State) (r : RunState) (b : Nat) :
    (s.setRunState r).cell b = s.cell b := rfl
@[simp] theorem State.cell_takeFault (s : State) (r : Raised) (b : Nat) : (s.takeFault r).cell b = s.cell b := rfl

/-! ## The canonical form -/

theorem Memory.erase_wf {m : Memory} (a : Nat) (h : Memory.wf m) : Memory.wf (Memory.erase m a) :=
  ⟨h.1.filter _, fun c hc => h.2 c (Memory.erase_subset hc)⟩

theorem Memory.mem_insert {m : Memory} {a : Nat} {v : Word} {c : Nat × Word} (h : c ∈ Memory.insert a v m) :
    c = (a, v) ∨ c ∈ m := by
  induction m with
  | nil => simpa [Memory.insert] using h
  | cons e rest ih =>
    obtain ⟨k, w⟩ := e
    by_cases hlt : a < k
    · simpa [Memory.insert, hlt] using h
    · simp only [Memory.insert, if_neg hlt, List.mem_cons] at h
      rcases h with h | h
      · exact .inr (by simp [h])
      · exact (ih h).imp_right fun h => by simp [h]

theorem Memory.insert_wf {m : Memory} {a : Nat} {v : Word} (hv : v ≠ Config.unlistedCell)
    (ha : ∀ c ∈ m, c.1 ≠ a) (h : Memory.wf m) : Memory.wf (Memory.insert a v m) := by
  refine ⟨?_, fun c hc => ?_⟩
  · obtain ⟨hs, -⟩ := h
    induction m with
    | nil => simp [Memory.insert]
    | cons e rest ih =>
      obtain ⟨k, w⟩ := e
      obtain ⟨hk, hrest⟩ := List.pairwise_cons.1 hs
      by_cases hlt : a < k
      · simp only [Memory.insert, if_pos hlt]
        refine List.pairwise_cons.2 ⟨fun c hc => ?_, hs⟩
        rcases List.mem_cons.1 hc with rfl | hc
        · exact hlt
        · exact lt_trans hlt (hk c hc)
      · have hne : k ≠ a := ha (k, w) (by simp)
        simp only [Memory.insert, if_neg hlt]
        refine List.pairwise_cons.2 ⟨fun c hc => ?_, ih (fun c hc => ha c (by simp [hc])) hrest⟩
        rcases Memory.mem_insert hc with rfl | hc
        · show k < a
          omega
        · exact hk c hc
  · rcases Memory.mem_insert hc with rfl | hc
    · exact hv
    · exact h.2 c hc

/-- A write keeps the canonical form. -/
theorem Memory.store_wf {m : Memory} (a : Nat) (v : Word) (h : Memory.wf m) : Memory.wf (Memory.store m a v) := by
  unfold Memory.store
  split
  · exact Memory.erase_wf a h
  · exact Memory.insert_wf ‹_› (fun _ => Memory.erase_ne) (Memory.erase_wf a h)

/-- A write lists no cell but the one written. -/
theorem Memory.mem_store {m : Memory} {a : Nat} {v : Word} {c : Nat × Word} (h : c ∈ Memory.store m a v) :
    c.1 = a ∨ c ∈ m := by
  unfold Memory.store at h
  split at h
  · exact .inr (Memory.erase_subset h)
  · rcases Memory.mem_insert h with rfl | h
    · exact .inl rfl
    · exact .inr (Memory.erase_subset h)

theorem Memory.lookup_of_mem {m : Memory} (h : Memory.wf m) {a : Nat} {w : Word} (hm : (a, w) ∈ m) :
    Memory.lookup m a = w := by
  obtain ⟨hs, -⟩ := h
  induction m with
  | nil => simp at hm
  | cons e rest ih =>
    obtain ⟨k, u⟩ := e
    obtain ⟨hk, hrest⟩ := List.pairwise_cons.1 hs
    rcases List.mem_cons.1 hm with he | hm
    · obtain ⟨rfl, rfl⟩ := Prod.mk.inj he
      simp [Memory.lookup]
    · have : k < a := hk _ hm
      have hne : a ≠ k := by omega
      simpa [Memory.lookup, hne] using ih hm hrest

/-- In canonical form, memories that read alike are equal data. -/
theorem Memory.ext_of_wf {m n : Memory} (hm : Memory.wf m) (hn : Memory.wf n)
    (h : ∀ a, Memory.lookup m a = Memory.lookup n a) : m = n := by
  have key : ∀ {m n : Memory}, Memory.wf m → Memory.wf n → (∀ a, Memory.lookup m a = Memory.lookup n a) →
      ∀ c ∈ m, c ∈ n := by
    intro m n hm hn h c hc
    by_contra hcn
    have hl : Memory.lookup m c.1 = c.2 := Memory.lookup_of_mem hm hc
    have hne : ∀ e ∈ n, e.1 ≠ c.1 := fun e he hec => by
      have := Memory.lookup_of_mem hn (a := e.1) (w := e.2) he
      rw [hec, ← h, hl] at this
      exact hcn (by rwa [show c = e from Prod.ext hec.symm this])
    exact hm.2 c hc (by rw [← hl, h, Memory.lookup_eq_unlisted hne])
  have anti : ∀ {m : Memory}, Memory.wf m → m.Pairwise fun c e => c.1 < e.1 := fun h => h.1
  have nodup : ∀ {m : Memory}, Memory.wf m → m.Nodup := fun h =>
    (anti h).imp fun {c e} hlt hce => by rw [hce] at hlt; exact lt_irrefl _ hlt
  refine List.Perm.eq_of_pairwise ?_ (anti hm) (anti hn)
    ((List.perm_ext_iff_of_nodup (nodup hm) (nodup hn)).2 fun c =>
      ⟨key hm hn h c, key hn hm (fun a => (h a).symm) c⟩)
  intro c e _ _ h1 h2
  omega

/-! ## The snapshot -/

theorem Memory.mem_ofWords {ws : List Word} {start : Nat} {c : Nat × Word} (h : c ∈ Memory.ofWords start ws) :
    start ≤ c.1 ∧ c.1 < start + ws.length ∧ c.2 ≠ Config.unlistedCell := by
  induction ws generalizing start with
  | nil => simp [Memory.ofWords] at h
  | cons w rest ih =>
    unfold Memory.ofWords at h
    split at h
    · obtain ⟨h1, h2, h3⟩ := ih h
      simp only [List.length_cons]
      exact ⟨by omega, by omega, h3⟩
    · rcases List.mem_cons.1 h with rfl | h
      · simp only [List.length_cons]
        exact ⟨le_refl _, by omega, ‹_›⟩
      · obtain ⟨h1, h2, h3⟩ := ih h
        simp only [List.length_cons]
        exact ⟨by omega, by omega, h3⟩

theorem Memory.ofWords_wf (start : Nat) (ws : List Word) : Memory.wf (Memory.ofWords start ws) := by
  refine ⟨?_, fun c hc => (Memory.mem_ofWords hc).2.2⟩
  induction ws generalizing start with
  | nil => simp [Memory.ofWords]
  | cons w rest ih =>
    unfold Memory.ofWords
    split
    · exact ih _
    · refine List.pairwise_cons.2 ⟨fun c hc => ?_, ih _⟩
      have := (Memory.mem_ofWords hc).1
      show start < c.1
      omega

theorem Memory.lookup_ofWords (ws : List Word) (start i : Nat) :
    Memory.lookup (Memory.ofWords start ws) (start + i) = ws.getD i Config.unlistedCell := by
  induction ws generalizing start i with
  | nil => simp [Memory.ofWords, Memory.lookup]
  | cons w rest ih =>
    unfold Memory.ofWords
    cases i with
    | zero =>
      split
      · rename_i hw
        rw [Memory.lookup_eq_unlisted fun c hc => by have := (Memory.mem_ofWords hc).1; omega]
        simp [hw]
      · simp [Memory.lookup]
    | succ i =>
      have := ih (start + 1) i
      rw [show start + 1 + i = start + (i + 1) by omega] at this
      split
      · simpa using this
      · simpa [Memory.lookup] using this

theorem Memory.ofWords_replicate_zero (start n : Nat) :
    Memory.ofWords start (List.replicate n Config.unlistedCell) = [] := by
  induction n generalizing start with
  | zero => rfl
  | succ n ih => simp only [List.replicate_succ, Memory.ofWords, if_true]; exact ih _

/-! ## Consecutive cells -/

@[simp] theorem Memory.window_length (m : Memory) (start n : Nat) : (Memory.window m start n).length = n := by
  induction n generalizing start with
  | zero => rfl
  | succ n ih => simp [Memory.window, ih]

theorem Memory.window_add (m : Memory) (start k n : Nat) :
    Memory.window m start (k + n) = Memory.window m start k ++ Memory.window m (start + k) n := by
  induction k generalizing start with
  | zero => simp [Memory.window]
  | succ k ih =>
    rw [show k + 1 + n = (k + n) + 1 by omega]
    simp only [Memory.window, List.cons_append, ih]
    rw [show start + 1 + k = start + (k + 1) by omega]

end Sys2Proof.Machine
end

