-- ==== Sys2Proof/Laws/Ops.lean ====
section
/-! SUPPORT. What each shared operation can do, said once. -/

namespace Sys2Proof.Machine

/-! ## Memory access and operands -/

theorem memRead_valid {s : State} {a : Word} (h : s.ValidAddr a) : memRead s a = .ok (s.cell a.toNat) := if_pos h

theorem memRead_invalid {s : State} {a : Word} (h : ¬s.ValidAddr a) : memRead s a = .error ⟨.outOfBounds, a⟩ :=
  if_neg h

theorem memRead_ok {s : State} {a w : Word} (h : memRead s a = .ok w) : s.ValidAddr a ∧ w = s.cell a.toNat := by
  unfold memRead at h
  split at h
  · exact ⟨‹_›, (Except.ok.inj h).symm⟩
  · cases h

theorem memWrite_valid {s : State} {a : Word} (v : Word) (h : s.ValidAddr a) :
    memWrite s a v = .ok (s.storeCell a.toNat v) := if_pos h

theorem memWrite_invalid {s : State} {a : Word} (v : Word) (h : ¬s.ValidAddr a) :
    memWrite s a v = .error ⟨.outOfBounds, a⟩ := if_neg h

theorem memWrite_ok {s t : State} {a v : Word} (h : memWrite s a v = .ok t) :
    s.ValidAddr a ∧ t = s.storeCell a.toNat v := by
  unfold memWrite at h
  split at h
  · exact ⟨‹_›, (Except.ok.inj h).symm⟩
  · cases h

@[simp] theorem resolve_position (s : State) (raw : Word) : resolve s raw .position = memRead s raw := rfl
@[simp] theorem resolve_immediate (s : State) (raw : Word) : resolve s raw .immediate = .ok raw := rfl

/-- A valid address has the same value read as signed and as a cell index. -/
theorem State.ValidAddr.toNat_eq {s : State} {a : Word} (h : s.ValidAddr a) : (a.toNat : Int) = a.toInt :=
  toNat_of_nonneg h.1

theorem State.ValidAddr.toNat_lt {s : State} {a : Word} (h : s.ValidAddr a) : a.toNat < s.memLen := by
  have := h.toNat_eq
  have := h.2
  omega

theorem memRead_error {s : State} {a : Word} {e : Raised} (h : memRead s a = .error e) : e = ⟨.outOfBounds, a⟩ := by
  unfold memRead at h
  split at h
  · cases h
  · exact (Except.error.inj h).symm

theorem memWrite_error {s : State} {a v : Word} {e : Raised} (h : memWrite s a v = .error e) :
    e = ⟨.outOfBounds, a⟩ := by
  unfold memWrite at h
  split at h
  · cases h
  · exact (Except.error.inj h).symm

theorem resolve_error {s : State} {raw : Word} {m : Mode} {e : Raised} (h : resolve s raw m = .error e) :
    e = ⟨.outOfBounds, raw⟩ := by
  cases m with
  | position => exact memRead_error h
  | immediate => cases h

/-! ## The overflow policy -/

theorem wrapW_toInt {v : Int} (h : fitsW v) : (wrapW v).toInt = v := by
  obtain ⟨h1, h2⟩ : -2147483648 ≤ v ∧ v ≤ 2147483647 := h
  unfold wrapW
  rw [BitVec.toInt_ofInt, Int.bmod_def]
  norm_num
  omega

theorem wrapW_congr (v : Int) : ((wrapW v).toInt - v) % 4294967296 = 0 := by
  unfold wrapW
  rw [BitVec.toInt_ofInt, Int.bmod_def]
  norm_num
  split <;> omega

theorem fit_error {ovf : Overflow} {w : Word} {v : Int} {e : Raised} (h : fit ovf w v = .error e) :
    e = ⟨.arithmeticOverflow, w⟩ ∧ ovf = .fault := by
  unfold fit at h
  split at h
  · cases h
  · cases ovf with
    | fault => exact ⟨(Except.error.inj h).symm, rfl⟩
    | wrap => cases h

/-! ## The end of an instruction -/

theorem finish_next {s t : State} {r : Except Raised State} (h : finish s r = .next t) :
    r = .ok t ∨ ∃ e, r = .error e ∧ t = s.takeFault e := by
  cases r with
  | ok u => exact .inl (by simpa [finish] using h)
  | error e => exact .inr ⟨e, rfl, by simpa [finish] using h.symm⟩

theorem finish_answers (s : State) (r : Except Raised State) : ∃ t, finish s r = .next t := by
  cases r <;> exact ⟨_, rfl⟩

/-! ## The two datapaths -/

/-- All that format F4 does when it completes. -/
theorem binaryToCell_ok {f : Word → Word → Except Raised Word} {h : Header} {a b d : Word} {s t : State}
    (hr : binaryToCell f h a b d s = .ok t) :
    ∃ x y r, resolve s a h.m1 = .ok x ∧ resolve s b h.m2 = .ok y ∧ f x y = .ok r ∧ s.ValidAddr d ∧
      t = (s.storeCell d.toNat r).advance 4 := by
  simp only [binaryToCell, bind, Except.bind] at hr
  split at hr
  · cases hr
  rename_i x hx
  split at hr
  · cases hr
  rename_i y hy
  split at hr
  · cases hr
  rename_i r hf
  split at hr
  · cases hr
  rename_i u hu
  obtain ⟨hd, rfl⟩ := memWrite_ok hu
  exact ⟨x, y, r, hx, hy, hf, hd, (Except.ok.inj hr).symm⟩

/-- The faults of format F4: out of bounds, or the fault of its computation. -/
theorem binaryToCell_error {f : Word → Word → Except Raised Word} {h : Header} {a b d : Word} {s : State} {e : Raised}
    (hr : binaryToCell f h a b d s = .error e) : e.cause = .outOfBounds ∨ ∃ x y, f x y = .error e := by
  simp only [binaryToCell, bind, Except.bind] at hr
  split at hr
  · rename_i hx
    cases hr
    exact .inl (by rw [resolve_error hx])
  split at hr
  · rename_i hx
    cases hr
    exact .inl (by rw [resolve_error hx])
  split at hr
  · rename_i hx
    cases hr
    exact .inr ⟨_, _, hx⟩
  split at hr
  · rename_i hx
    cases hr
    exact .inl (by rw [memWrite_error hx])
  · cases hr

/-- All that a conditional jump does when it completes. -/
theorem jumpWhen_ok {taken : Word → Bool} {h : Header} {c t : Word} {s u : State}
    (hr : jumpWhen taken h c t s = .ok u) :
    ∃ x y, resolve s c h.m1 = .ok x ∧ resolve s t h.m2 = .ok y ∧
      u = if taken x then s.setPc y else s.advance 3 := by
  simp only [jumpWhen, bind, Except.bind] at hr
  split at hr
  · cases hr
  rename_i x hx
  split at hr
  · cases hr
  rename_i y hy
  exact ⟨x, y, hx, hy, (Except.ok.inj hr).symm⟩

/-- The only fault of a conditional jump is out of bounds. -/
theorem jumpWhen_error {taken : Word → Bool} {h : Header} {c t : Word} {s : State} {e : Raised}
    (hr : jumpWhen taken h c t s = .error e) : e.cause = .outOfBounds := by
  simp only [jumpWhen, bind, Except.bind] at hr
  split at hr
  · rename_i hx
    cases hr
    rw [resolve_error hx]
  split at hr
  · rename_i hx
    cases hr
    rw [resolve_error hx]
  · cases hr

/-! ## Completions -/

theorem pending_ok {s : State} {m1 : Mode} {raw1 : Word} (h : pending s = .ok (m1, raw1)) :
    s.ValidAddr s.pc ∧ s.ValidAddr (s.pc + 1) ∧ Mode.ofDigit (digit (s.cell s.pc.toNat).toInt 2) = some m1 ∧
      raw1 = s.cell (s.pc + 1).toNat := by
  simp only [pending, bind, Except.bind] at h
  split at h
  · cases h
  rename_i w hw
  split at h
  · cases h
  rename_i r hr
  obtain ⟨h1, rfl⟩ := memRead_ok hw
  obtain ⟨h2, rfl⟩ := memRead_ok hr
  split at h
  · rename_i m hm
    obtain ⟨rfl, rfl⟩ := Prod.mk.inj (Except.ok.inj h)
    exact ⟨h1, h2, hm, rfl⟩
  · cases h

theorem pending_eq {s : State} {m1 : Mode} (h1 : s.ValidAddr s.pc) (h2 : s.ValidAddr (s.pc + 1))
    (hm : Mode.ofDigit (digit (s.cell s.pc.toNat).toInt 2) = some m1) :
    pending s = .ok (m1, s.cell (s.pc + 1).toNat) := by
  simp only [pending, bind, Except.bind, memRead_valid h1, memRead_valid h2, hm]

/-- All that the completion of IN does. -/
theorem completeIn_ok {v : Word} {s t : State} (h : completeIn v s = .ok t) :
    ∃ m1 raw1, pending s = .ok (m1, raw1) ∧ s.ValidAddr (inputDest s.pc raw1 m1) ∧
      t = ((s.storeCell (inputDest s.pc raw1 m1).toNat v).advance 2).setRunState .running := by
  simp only [completeIn, bind, Except.bind] at h
  split at h
  · cases h
  rename_i p hp
  split at h
  · cases h
  rename_i u hu
  obtain ⟨hd, rfl⟩ := memWrite_ok hu
  exact ⟨p.1, p.2, hp, hd, (Except.ok.inj h).symm⟩

/-- All that the completion of OUT does. -/
theorem completeOut_ok {s : State} {p : State × Word} (h : completeOut s = .ok p) :
    ∃ m1 raw1, pending s = .ok (m1, raw1) ∧ resolve s raw1 m1 = .ok p.2 ∧
      p.1 = (s.advance 2).setRunState .running := by
  simp only [completeOut, bind, Except.bind] at h
  split at h
  · cases h
  rename_i q hq
  split at h
  · cases h
  rename_i x hx
  obtain rfl := Except.ok.inj h
  exact ⟨q.1, q.2, hq, hx, rfl⟩

/-! ## Executing one instruction -/

/-- All that executing an instruction can do: take a fault; store one cell and advance by 4 (format F4); set the
pc, or advance by 3 (jumps); change the run state (IN, OUT, HALT). -/
theorem exec_cases {i : Instr} {s t : State} (h : exec i s = .next t) :
    (∃ e, t = s.takeFault e ∧ i.kind ∉ [Kind.inp, .out, .halt]) ∨
    (i.kind ∈ [Kind.add, .mul, .lt, .eq] ∧
      ∃ d r, i.operands[2]? = some d ∧ s.ValidAddr d ∧ t = (s.storeCell d.toNat r).advance 4) ∨
    (i.kind ∈ [Kind.jt, .jf] ∧
      ∃ y p, i.operands[1]? = some p ∧ resolve s p i.header.m2 = .ok y ∧ (t = s.setPc y ∨ t = s.advance 3)) ∨
    (i.kind = .inp ∧ t = s.setRunState .awaitingInput) ∨
    (i.kind = .out ∧ t = s.setRunState .awaitingOutput) ∨
    (i.kind = .halt ∧ t = s.setRunState .stopped) := by
  have bin : ∀ {f hd a b d}, finish s (binaryToCell f hd a b d s) = .next t →
      (∃ e, t = s.takeFault e) ∨ ∃ r, s.ValidAddr d ∧ t = (s.storeCell d.toNat r).advance 4 := by
    intro f hd a b d hn
    rcases finish_next hn with hok | ⟨e, -, rfl⟩
    · obtain ⟨x, y, r, -, -, -, hv, rfl⟩ := binaryToCell_ok hok
      exact .inr ⟨r, hv, rfl⟩
    · exact .inl ⟨e, rfl⟩
  have jmp : ∀ {p hd a b}, finish s (jumpWhen p hd a b s) = .next t →
      (∃ e, t = s.takeFault e) ∨ ∃ y, resolve s b hd.m2 = .ok y ∧ (t = s.setPc y ∨ t = s.advance 3) := by
    intro p hd a b hn
    rcases finish_next hn with hok | ⟨e, -, rfl⟩
    · obtain ⟨x, y, -, hy, rfl⟩ := jumpWhen_ok hok
      exact .inr ⟨y, hy, by split <;> simp⟩
    · exact .inl ⟨e, rfl⟩
  cases i with
  | add hd a b d | mul hd a b d | lt hd a b d | eq hd a b d =>
    rcases bin h with ⟨e, he⟩ | ⟨r, hv, ht⟩
    · exact .inl ⟨e, he, by simp [Instr.kind]⟩
    · exact .inr (.inl ⟨by simp [Instr.kind], d, r, rfl, hv, ht⟩)
  | jt hd c p | jf hd c p =>
    rcases jmp h with ⟨e, he⟩ | ⟨y, hy, ht⟩
    · exact .inl ⟨e, he, by simp [Instr.kind]⟩
    · exact .inr (.inr (.inl ⟨by simp [Instr.kind], y, p, rfl, hy, ht⟩))
  | inp hd a =>
    exact .inr (.inr (.inr (.inl ⟨rfl, (Host.Outcome.next.inj h).symm⟩)))
  | out hd a =>
    exact .inr (.inr (.inr (.inr (.inl ⟨rfl, (Host.Outcome.next.inj h).symm⟩))))
  | halt hd =>
    exact .inr (.inr (.inr (.inr (.inr ⟨rfl, (Host.Outcome.next.inj h).symm⟩))))

/-- Executing an instruction always gives a next state. -/
theorem exec_answers (i : Instr) (s : State) : ∃ t, exec i s = .next t := by
  cases i with
  | add | mul | lt | eq | jt | jf => exact finish_answers _ _
  | inp | out | halt => exact ⟨_, rfl⟩

end Sys2Proof.Machine
end

