-- ==== Sys2Proof/Laws/Step.lean ====
section
/-! SUPPORT. What a step can do. -/

namespace Sys2Proof.Machine

/-- Fetching ends in a state or in an instruction that the cells at the pc decode to. -/
theorem fetchDecode_cases (s : State) :
    (s.pc.toInt < 0 ∧ fetchDecode s = .ends (s.takeFault ⟨.outOfBounds, s.pc⟩)) ∨
    (s.memLen ≤ s.pc.toInt ∧ fetchDecode s = .ends (s.setRunState .stopped)) ∨
    (s.ValidAddr s.pc ∧
      ((∃ i, decode s.instrCells = .ok i ∧ fetchDecode s = .runs i) ∨
       (∃ w, decode s.instrCells = .error (.invalidOpcode w) ∧
          fetchDecode s = .ends (s.takeFault ⟨.invalidOpcode, w⟩)) ∨
       (∃ w, decode s.instrCells = .error (.invalidMode w) ∧
          fetchDecode s = .ends (s.takeFault ⟨.invalidMode, w⟩)) ∨
       (decode s.instrCells = .error .truncated ∧ fetchDecode s = .ends (s.setRunState .stopped)))) := by
  unfold fetchDecode
  by_cases h0 : s.pc.toInt < 0
  · exact .inl ⟨h0, by rw [if_pos h0]⟩
  by_cases h1 : (s.memLen : Int) ≤ s.pc.toInt
  · exact .inr (.inl ⟨h1, by rw [if_neg h0, if_pos h1]⟩)
  refine .inr (.inr ⟨⟨by omega, by omega⟩, ?_⟩)
  rw [if_neg h0, if_neg h1]
  cases hd : decode s.instrCells with
  | ok i => exact .inl ⟨i, rfl, rfl⟩
  | error e =>
    cases e with
    | invalidOpcode w => exact .inr (.inl ⟨w, rfl, rfl⟩)
    | invalidMode w => exact .inr (.inr (.inl ⟨w, rfl, rfl⟩))
    | truncated => exact .inr (.inr (.inr ⟨rfl, rfl⟩))

/-- All that a step can do, case by case in the order of 40_step_and_decode.md R117. -/
inductive StepResult (s : State) : State → Prop where
  | recordedFault (c : Cause) : s.fault = some c → StepResult s s
  | alreadyStopped : s.fault = none → s.runState = .stopped → StepResult s s
  | awaiting : s.fault = none → s.runState = .awaitingInput ∨ s.runState = .awaitingOutput →
      StepResult s (s.takeFault ⟨.contractViolation, cmdStep⟩)
  | negativePc : s.fault = none → s.runState = .running → s.pc.toInt < 0 →
      StepResult s (s.takeFault ⟨.outOfBounds, s.pc⟩)
  | ranOff : s.fault = none → s.runState = .running → s.memLen ≤ s.pc.toInt → StepResult s (s.setRunState .stopped)
  | illegalOpcode (w : Word) : s.fault = none → s.runState = .running → s.ValidAddr s.pc →
      decode s.instrCells = .error (.invalidOpcode w) → StepResult s (s.takeFault ⟨.invalidOpcode, w⟩)
  | illegalMode (w : Word) : s.fault = none → s.runState = .running → s.ValidAddr s.pc →
      decode s.instrCells = .error (.invalidMode w) → StepResult s (s.takeFault ⟨.invalidMode, w⟩)
  | truncated : s.fault = none → s.runState = .running → s.ValidAddr s.pc →
      decode s.instrCells = .error .truncated → StepResult s (s.setRunState .stopped)
  | executed (i : Instr) (t : State) : s.fault = none → s.runState = .running → s.ValidAddr s.pc →
      decode s.instrCells = .ok i → exec i s = .next t → StepResult s t

theorem step_cases {s t : State} (h : step s = .next t) : StepResult s t := by
  unfold step at h
  cases hf : s.fault with
  | some c =>
    simp only [frontEnd, hf] at h
    exact Host.Outcome.next.inj h ▸ .recordedFault c hf
  | none =>
    cases hr : s.runState with
    | stopped =>
      simp only [frontEnd, hf, hr] at h
      exact Host.Outcome.next.inj h ▸ .alreadyStopped hf hr
    | awaitingInput =>
      simp only [frontEnd, hf, hr] at h
      exact Host.Outcome.next.inj h ▸ .awaiting hf (.inl hr)
    | awaitingOutput =>
      simp only [frontEnd, hf, hr] at h
      exact Host.Outcome.next.inj h ▸ .awaiting hf (.inr hr)
    | running =>
      simp only [frontEnd, hf, hr] at h
      rcases fetchDecode_cases s with ⟨hp, e⟩ | ⟨hp, e⟩ | ⟨hv, ⟨i, hi, e⟩ | ⟨w, hw, e⟩ | ⟨w, hw, e⟩ | ⟨hw, e⟩⟩ <;>
        rw [e] at h
      · exact Host.Outcome.next.inj h ▸ .negativePc hf hr hp
      · exact Host.Outcome.next.inj h ▸ .ranOff hf hr hp
      · exact .executed i t hf hr hv hi h
      · exact Host.Outcome.next.inj h ▸ .illegalOpcode w hf hr hv hw
      · exact Host.Outcome.next.inj h ▸ .illegalMode w hf hr hv hw
      · exact Host.Outcome.next.inj h ▸ .truncated hf hr hv hw

/-- The cells at a valid pc begin with the cell the pc names, and there are as many as memory has, up to 4. -/
theorem instrCells_cons {s : State} (h : s.ValidAddr s.pc) :
    ∃ rest, s.instrCells = s.cell s.pc.toNat :: rest ∧ rest.length = min 4 (s.memLen - s.pc.toNat) - 1 := by
  have hlt := h.toNat_lt
  obtain ⟨n, hn⟩ : ∃ n, min 4 (s.memLen - s.pc.toNat) = n + 1 := ⟨min 4 (s.memLen - s.pc.toNat) - 1, by omega⟩
  exact ⟨_, by rw [State.instrCells, hn]; rfl, by simp [hn]⟩

/-- An instruction decoded at a valid pc lies within memory, and the word at the pc is its own. -/
theorem decoded_fits {s : State} {i : Instr} (hv : s.ValidAddr s.pc) (h : decode s.instrCells = .ok i) :
    s.pc.toInt + i.width ≤ s.memLen ∧ decodeWord (s.cell s.pc.toNat) = .ok ⟨i.kind, i.header⟩ := by
  obtain ⟨w, rest, hw, hd⟩ := decode_ok h
  obtain ⟨tail, ht, hl⟩ := instrCells_cons hv
  rw [ht] at hw
  obtain ⟨rfl, htail⟩ := List.cons.inj hw
  refine ⟨?_, hd⟩
  have h1 := congrArg List.length htail
  rw [List.length_append, operands_length, hl] at h1
  have h2 := hv.toNat_eq
  have h3 := hv.toNat_lt
  have h4 : i.width = i.kind.nparams + 1 := by cases i <;> rfl
  omega

end Sys2Proof.Machine
end

