-- ==== Sys2Proof/Laws/Host.lean ====
section
/-! SUPPORT. What the host commands can do. -/

namespace Sys2Proof.Machine

theorem stepCommand_some {s t : State} {r : Response} (h : stepCommand s = some (t, r)) :
    step s = .next t ∧ r = t.report := by
  unfold stepCommand at h
  split at h
  · rename_i u hu
    obtain ⟨rfl, rfl⟩ := Prod.mk.inj (Option.some.inj h)
    exact ⟨hu, rfl⟩
  · rename_i r _; cases r
  · cases h

theorem stepCommand_of_step {s t : State} (h : step s = .next t) : stepCommand s = some (t, t.report) := by
  unfold stepCommand; rw [h]

/-- All that supply_input and take_output can do around their own work. -/
theorem completion_cases (own : RunState) (code : Word) (body : Except Raised (State × Response)) (s : State) :
    (∃ c, s.fault = some c ∧ completion own code body s = (s, .fault c s.faultInfo)) ∨
    (s.fault = none ∧ s.runState ≠ own ∧ completion own code body s =
      (s.takeFault ⟨.contractViolation, code⟩, .fault .contractViolation code)) ∨
    (s.fault = none ∧ s.runState = own ∧
      ((∃ p, body = .ok p ∧ completion own code body s = p) ∨
       (∃ e, body = .error e ∧ completion own code body s = (s.takeFault e, .fault e.cause e.info)))) := by
  unfold completion
  cases hf : s.fault with
  | some c => exact .inl ⟨c, rfl, rfl⟩
  | none =>
    by_cases hr : s.runState = own
    · refine .inr (.inr ⟨rfl, hr, ?_⟩)
      cases body with
      | ok p => exact .inl ⟨p, rfl, by simp [hr, finishCommand]⟩
      | error e => exact .inr ⟨e, rfl, by simp [hr, finishCommand]⟩
    · exact .inr (.inl ⟨rfl, hr, by simp [hr, finishCommand]⟩)

/-- What holds before a run and is kept by every step holds after it. -/
theorem runLoop_keeps {P : State → Prop} (hP : ∀ {s t r}, P s → stepCommand s = some (t, r) → P t) {fuel n : Nat}
    {s t : State} {r : Response} (hs : P s) (h : runLoop fuel n s = some (t, r)) : P t := by
  induction fuel generalizing n s with
  | zero => cases h
  | succ fuel ih =>
    simp only [runLoop] at h
    cases hc : stepCommand s with
    | none => rw [hc] at h; cases h
    | some p =>
      obtain ⟨u, q⟩ := p
      rw [hc] at h
      have hu := hP hs hc
      split at h
      · cases ‹some (u, q) = none›
      · rename_i hq; cases hq; exact ih hu h
      · rename_i hq; cases hq; cases h; exact hu
      · rename_i hq; cases hq; cases h; exact hu

/-- create succeeds exactly on the legal lengths. -/
theorem create_eq_none {ovf : Overflow} {ws : List Word} :
    create ovf ws = none ↔ ws.length = 0 ∨ Config.maxMemLen < ws.length := by
  unfold create; split <;> simp_all

theorem create_some {ovf : Overflow} {ws : List Word} {m : State} (h : create ovf ws = some m) :
    1 ≤ ws.length ∧ ws.length ≤ Config.maxMemLen ∧
      m = { mem := Memory.ofWords 0 ws, memLen := ws.length, pc := 0, runState := .running, fault := none,
            faultInfo := 0, ovf := ovf } := by
  unfold create at h
  split at h
  · cases h
  · rename_i hn
    rw [not_or] at hn
    exact ⟨by omega, by omega, (Option.some.inj h).symm⟩

/-- All that supply_input can do: take a fault, report the recorded one, or complete the pending IN. -/
theorem supplyInput_cases (v : Word) (s : State) :
    (s.fault = none ∧ ∃ e, supplyInput v s = (s.takeFault e, .fault e.cause e.info)) ∨
    (∃ c, s.fault = some c ∧ supplyInput v s = (s, .fault c s.faultInfo)) ∨
    (s.fault = none ∧ s.runState = .awaitingInput ∧ ∃ t, completeIn v s = .ok t ∧ supplyInput v s = (t, .done)) := by
  unfold supplyInput
  rcases completion_cases .awaitingInput cmdSupply ((completeIn v s).map fun t => (t, .done)) s with
    ⟨c, h1, h2⟩ | ⟨h1, -, h3⟩ | ⟨h1, h2, ⟨p, h3, h4⟩ | ⟨e, -, h4⟩⟩
  · exact .inr (.inl ⟨c, h1, h2⟩)
  · exact .inl ⟨h1, _, h3⟩
  · cases hc : completeIn v s with
    | error e => rw [hc] at h3; cases h3
    | ok t =>
      rw [hc] at h3
      cases h3
      exact .inr (.inr ⟨h1, h2, t, rfl, by rw [hc] at h4; exact h4⟩)
  · exact .inl ⟨h1, e, h4⟩

/-- All that take_output can do: take a fault, report the recorded one, or complete the pending OUT. -/
theorem takeOutput_cases (s : State) :
    (s.fault = none ∧ ∃ e, takeOutput s = (s.takeFault e, .fault e.cause e.info)) ∨
    (∃ c, s.fault = some c ∧ takeOutput s = (s, .fault c s.faultInfo)) ∨
    (s.fault = none ∧ s.runState = .awaitingOutput ∧
      ∃ p, completeOut s = .ok p ∧ takeOutput s = (p.1, .value p.2)) := by
  unfold takeOutput
  rcases completion_cases .awaitingOutput cmdTake ((completeOut s).map fun p => (p.1, .value p.2)) s with
    ⟨c, h1, h2⟩ | ⟨h1, -, h3⟩ | ⟨h1, h2, ⟨p, h3, h4⟩ | ⟨e, -, h4⟩⟩
  · exact .inr (.inl ⟨c, h1, h2⟩)
  · exact .inl ⟨h1, _, h3⟩
  · cases hc : completeOut s with
    | error e => rw [hc] at h3; cases h3
    | ok q =>
      rw [hc] at h3
      cases h3
      exact .inr (.inr ⟨h1, h2, q, rfl, by rw [hc] at h4; exact h4⟩)
  · exact .inl ⟨h1, e, h4⟩

/-! ## Any command -/

@[simp] theorem perform_step (fuel : Nat) (s : State) : perform fuel .step s = stepCommand s := rfl
@[simp] theorem perform_supplyInput (fuel : Nat) (v : Word) (s : State) :
    perform fuel (.supplyInput v) s = some (supplyInput v s) := rfl
@[simp] theorem perform_takeOutput (fuel : Nat) (s : State) : perform fuel .takeOutput s = some (takeOutput s) := rfl
@[simp] theorem perform_run (fuel : Nat) (s : State) : perform fuel .run s = run fuel s := rfl
@[simp] theorem perform_isRunning (fuel : Nat) (s : State) :
    perform fuel .isRunning s = some (s, .flag (isRunning s)) := rfl
@[simp] theorem perform_copy (fuel : Nat) (s : State) : perform fuel .copy s = some (s, .machine s) := rfl

/-- The commands that act on the Machine itself. -/
def Command.acts : Command → Bool
  | .step => true
  | .supplyInput _ => true
  | .takeOutput => true
  | .run => true
  | _ => false

/-- The other commands change nothing and report no recorded fault. -/
theorem perform_observer {fuel : Nat} {c : Command} {s t : State} {r : Response} (hc : c.acts = false)
    (h : perform fuel c s = some (t, r)) : t = s ∧ (∀ f info, r ≠ .fault f info) ∧ ∀ st, r ≠ .status st := by
  cases c with
  | create ws => simp only [perform] at h; split at h <;> cases h <;> exact ⟨rfl, nofun, nofun⟩
  | peek a => simp only [perform] at h; split at h <;> cases h <;> exact ⟨rfl, nofun, nofun⟩
  | isRunning => cases h; exact ⟨rfl, nofun, nofun⟩
  | copy => cases h; exact ⟨rfl, nofun, nofun⟩
  | step | supplyInput | takeOutput | run => cases hc

/-- What steps, supply_input and take_output keep, every command keeps. -/
theorem perform_keeps {P : State → Prop} (hstep : ∀ {s t}, P s → step s = .next t → P t)
    (hsupply : ∀ {s} v, P s → P (supplyInput v s).1) (htake : ∀ {s}, P s → P (takeOutput s).1) {fuel : Nat}
    {c : Command} {s t : State} {r : Response} (hs : P s) (h : perform fuel c s = some (t, r)) : P t := by
  cases c with
  | create ws => simp only [perform] at h; split at h <;> cases h <;> exact hs
  | step => exact hstep hs (stepCommand_some h).1
  | supplyInput v =>
    have := hsupply v hs
    rwa [Option.some.inj h] at this
  | takeOutput =>
    have := htake hs
    rwa [Option.some.inj h] at this
  | run =>
    simp only [perform, run] at h
    split at h
    · cases h; exact hs
    · split at h
      · exact runLoop_keeps (fun hp hq => hstep hp (stepCommand_some hq).1) hs h
      · cases h; exact hs
  | peek a => simp only [perform] at h; split at h <;> cases h <;> exact hs
  | isRunning => cases h; exact hs
  | copy => cases h; exact hs

end Sys2Proof.Machine
end

