-- ==== Sys2Proof/Laws/PerInstr.lean ====
section
/-! SUPPORT. Statements about every instruction as syntax, one lemma per constructor. -/

/-- `EncodeLength`: an instruction's words are as many as its width (30_encoding.md R60, R63). -/
def Sys2Proof.Laws.EncodeLength.Statement (i : Sys2Proof.Instr) : Prop :=
  (Sys2Proof.encode i).length = i.width

namespace Sys2Proof.Laws.EncodeLength

theorem add (h : Header) (a b d : Word) : Statement (.add h a b d) := rfl
theorem mul (h : Header) (a b d : Word) : Statement (.mul h a b d) := rfl
theorem inp (h : Header) (a : Word) : Statement (.inp h a) := rfl
theorem out (h : Header) (a : Word) : Statement (.out h a) := rfl
theorem jt (h : Header) (c t : Word) : Statement (.jt h c t) := rfl
theorem jf (h : Header) (c t : Word) : Statement (.jf h c t) := rfl
theorem lt (h : Header) (a b d : Word) : Statement (.lt h a b d) := rfl
theorem eq (h : Header) (a b d : Word) : Statement (.eq h a b d) := rfl
theorem halt (h : Header) : Statement (.halt h) := rfl

end Sys2Proof.Laws.EncodeLength
end

