-- ==== Sys2Proof/Machine/Assembler.lean ====
section
/-! DEFINITION. The assembly notation of 30_encoding.md R80, as data: lines to words. A label is named by a number
here, may stand wherever a number may, and where it is defined twice its first definition counts (DESIGN CHOICE, log
entry 14). -/

namespace Sys2Proof.Machine

/-- A number, or the address a label names. -/
inductive AsmValue where
  | num (n : Int)
  | label (l : Nat)
deriving DecidableEq, Repr

/-- An operand: `[n]` is Position, `#n` is Immediate. -/
inductive AsmOperand where
  | pos (v : AsmValue)
  | imm (v : AsmValue)
deriving DecidableEq, Repr

/-- A line: an instruction, `.word n`, or `label:`. A destination of ADD, MUL, LT and EQ is written `[n]`. -/
inductive AsmLine where
  | add (a b : AsmOperand) (d : AsmValue)
  | mul (a b : AsmOperand) (d : AsmValue)
  | inp (a : AsmOperand)
  | out (a : AsmOperand)
  | jt (c t : AsmOperand)
  | jf (c t : AsmOperand)
  | lt (a b : AsmOperand) (d : AsmValue)
  | eq (a b : AsmOperand) (d : AsmValue)
  | halt
  | word (v : AsmValue)
  | label (l : Nat)
deriving DecidableEq, Repr

/-- The mode an operand assembles to. -/
def AsmOperand.mode : AsmOperand → Mode
  | .pos _ => .position
  | .imm _ => .immediate

/-- The value an operand holds. -/
def AsmOperand.value : AsmOperand → AsmValue
  | .pos v => v
  | .imm v => v

/-- The number of cells a line takes (R63; a literal word takes one, a label none). -/
def AsmLine.size : AsmLine → Nat
  | .add .. => Kind.add.width
  | .mul .. => Kind.mul.width
  | .inp .. => Kind.inp.width
  | .out .. => Kind.out.width
  | .jt .. => Kind.jt.width
  | .jf .. => Kind.jf.width
  | .lt .. => Kind.lt.width
  | .eq .. => Kind.eq.width
  | .halt => Kind.halt.width
  | .word _ => 1
  | .label _ => 0

/-- The labels of a program that starts at cell `start`, each with the address of the cell after it. -/
def asmLabels (start : Nat) : List AsmLine → List (Nat × Nat)
  | [] => []
  | .label l :: rest => (l, start) :: asmLabels start rest
  | line :: rest => asmLabels (start + line.size) rest

/-- A value as a word; none for an unknown label or a number that is no word (70_reset_and_hazards.md R253). A label
defined twice names the address of its first definition: R80 does not say which (DESIGN CHOICE, log entry 14). -/
def asmWord (labels : List (Nat × Nat)) : AsmValue → Option Word
  | .num n => if fitsW n then some (wrapW n) else none
  | .label l => (labels.lookup l).map fun a => BitVec.ofNat 32 a

/-- The canonical header (R62): no ignored digits, unused slots 0. -/
def asmHeader (m1 m2 : Mode) : Header := ⟨m1, m2, .position, 0⟩

/-- The words of one line. -/
def AsmLine.words (labels : List (Nat × Nat)) : AsmLine → Option (List Word)
  | .add a b d => do
    some (encode (.add (asmHeader a.mode b.mode) (← asmWord labels a.value) (← asmWord labels b.value) (← asmWord labels d)))
  | .mul a b d => do
    some (encode (.mul (asmHeader a.mode b.mode) (← asmWord labels a.value) (← asmWord labels b.value) (← asmWord labels d)))
  | .inp a => do some (encode (.inp (asmHeader a.mode .position) (← asmWord labels a.value)))
  | .out a => do some (encode (.out (asmHeader a.mode .position) (← asmWord labels a.value)))
  | .jt c t => do
    some (encode (.jt (asmHeader c.mode t.mode) (← asmWord labels c.value) (← asmWord labels t.value)))
  | .jf c t => do
    some (encode (.jf (asmHeader c.mode t.mode) (← asmWord labels c.value) (← asmWord labels t.value)))
  | .lt a b d => do
    some (encode (.lt (asmHeader a.mode b.mode) (← asmWord labels a.value) (← asmWord labels b.value) (← asmWord labels d)))
  | .eq a b d => do
    some (encode (.eq (asmHeader a.mode b.mode) (← asmWord labels a.value) (← asmWord labels b.value) (← asmWord labels d)))
  | .halt => some (encode (.halt (asmHeader .position .position)))
  | .word v => do some [← asmWord labels v]
  | .label _ => some []

/-- The words of a program's lines under known labels. -/
def asmLines (labels : List (Nat × Nat)) : List AsmLine → Option (List Word)
  | [] => some []
  | line :: rest => do
    let ws ← AsmLine.words labels line
    let more ← asmLines labels rest
    some (ws ++ more)

/-- The words of a program that starts at cell 0. -/
def assembleProgram (program : List AsmLine) : Option (List Word) := asmLines (asmLabels 0 program) program

end Sys2Proof.Machine
end

