-- ==== Sys2Proof/Tests/Slice0.lean ====
section
/-! SUPPORT. Tests: decoding of words written out digit by digit, one or two steps' effects for each instruction, the
host commands, and for each statement with hypotheses a state that meets them. Expected values are those of
95_test_vectors.md and of the rules' examples. -/

namespace Sys2Proof.Tests

open Sys2Proof.Machine Sys2Proof.Statement

/-- The Machine whose memory is exactly these cells, right after create. -/
def machine (cells : List Int) : State :=
  { State.reset with mem := Memory.ofWords 0 (cells.map (BitVec.ofInt 32)), memLen := cells.length }

/-- The same with another pc. -/
def machineAt (cells : List Int) (pc : Word) : State := { machine cells with pc := pc }

/-- A Machine that awaits. -/
def waiting (cells : List Int) (r : RunState) : State := { machine cells with runState := r }

/-- A property of the next state; false where there is none. -/
def nextIs (o : Host.Outcome State Fault Refusal) (p : State → Bool) : Bool :=
  match o with
  | .next t => p t
  | .fault _ => false
  | .refused _ => false

/-- The cells of memory as signed numbers. -/
def cells (s : State) : List Int := (Memory.window s.mem 0 s.memLen).map BitVec.toInt

/-- Position modes in all slots. -/
abbrev ppp : Header := ⟨.position, .position, .position, 0⟩

/-- Immediate modes in slots 1 and 2. -/
abbrev iip : Header := ⟨.immediate, .immediate, .position, 0⟩

/-! ## WellFormed and decoding -/

/-- The largest ignored digits that fit, and the first that do not (the one check of `wellFormed`). -/
theorem test_wellFormed_upper :
    (Instr.halt { ppp with upper := 21474 }).wellFormed ∧ ¬(Instr.halt { ppp with upper := 21475 }).wellFormed := by
  decide

/-- 2.1 of the vectors: m3 m2 m1 op = 0 1 0 02. -/
theorem test_decode_mul : decode [1002, 4, 3, 4] = .ok (.mul ⟨.position, .immediate, .position, 0⟩ 4 3 4) := rfl
/-- Modes (0, 0, 1): a legal digit in the destination slot. -/
theorem test_decode_add : decode [10001, 5, 6, 7] = .ok (.add ⟨.position, .position, .immediate, 0⟩ 5 6 7) := rfl
theorem test_decode_in : decode [3, 0, 4] = .ok (.inp ppp 0) := rfl
theorem test_decode_out : decode [104, -9] = .ok (.out ⟨.immediate, .position, .position, 0⟩ (-9)) := rfl
theorem test_decode_jt : decode [1105, 1, -3, 99] = .ok (.jt iip 1 (-3)) := rfl
theorem test_decode_jf : decode [1006, 20, 16] = .ok (.jf ⟨.position, .immediate, .position, 0⟩ 20 16) := rfl
theorem test_decode_lt : decode [7, 5, 6, 7] = .ok (.lt ppp 5 6 7) := rfl
theorem test_decode_eq : decode [108, 8, 5, 5] = .ok (.eq ⟨.immediate, .position, .position, 0⟩ 8 5 5) := rfl
theorem test_decode_halt : decode [11199] = .ok (.halt ⟨.immediate, .immediate, .immediate, 0⟩) := rfl
/-- The digit at 10^5 is ignored (R62). -/
theorem test_decode_ignored_digit : decode [100001, 5, 6, 7] = .ok (.add { ppp with upper := 1 } 5 6 7) := rfl
/-- Negative words are illegal opcodes, not HALT or a mode error. -/
theorem test_decode_negative :
    decode [-99] = .error (.invalidOpcode (-99)) ∧ decode [-1101] = .error (.invalidOpcode (-1101)) ∧
      decode [-2147483648] = .error (.invalidOpcode (-2147483648)) := ⟨rfl, rfl, rfl⟩
theorem test_decode_bad_mode :
    decode [299] = .error (.invalidMode 299) ∧ decode [2001, 0, 0, 0] = .error (.invalidMode 2001) ∧
      decode [10203, 0] = .error (.invalidMode 10203) := ⟨rfl, rfl, rfl⟩
theorem test_decode_bad_opcode :
    decode [0] = .error (.invalidOpcode 0) ∧ decode [100] = .error (.invalidOpcode 100) ∧
      decode [2147483647] = .error (.invalidOpcode 2147483647) := ⟨rfl, rfl, rfl⟩
theorem test_encode_jt : encode (.jt iip 1 (-3)) = [1105, 1, -3] := rfl
theorem test_decodeTableWord :
    decodeTableWord 8 99 = some (.halt ppp) ∧ decodeTableWord 64 (103 + 5 * 2 ^ 32) =
      some (.inp ⟨.immediate, .position, .position, 0⟩ 5) ∧ decodeTableWord 16 0 = none := ⟨rfl, rfl, rfl⟩
/-- The example of R80: `MUL [4], #3, [4]`. -/
theorem test_assemble_mul :
    assembleProgram [.mul (.pos (.num 4)) (.imm (.num 3)) (.num 4)] = some [1002, 4, 3, 4] := by decide
/-- P4 of the vectors with a label for the operand cell's neighbour. -/
theorem test_assemble_label :
    assembleProgram [.inp (.imm (.num 0)), .label 0, .out (.pos (.label 0)), .halt, .word (.num (-1))] =
      some [103, 0, 4, 2, 99, -1] := by decide

/-! ## One step of each instruction -/

/-- S2: the opcode cell is its own source and its destination. -/
theorem test_add_over_its_own_opcode :
    nextIs (step (machine [1, 0, 0, 0, 99])) (fun t => decide (cells t = [2, 0, 0, 0, 99] ∧ t.pc = 4)) = true := by
  decide
theorem test_add_overflow_faults :
    nextIs (step (machine [1101, 2147483647, 1, 9, 99]))
      (fun t => decide (t.fault = some .arithmeticOverflow ∧ t.faultInfo = 1101 ∧ t.pc = 0)) = true := by decide
/-- S7. -/
theorem test_mul_position_and_immediate :
    nextIs (step (machine [1002, 4, 3, 4, 33])) (fun t => decide (cells t = [1002, 4, 3, 4, 99])) = true := by decide
theorem test_mul_wraps :
    nextIs (step { machine [1102, -2147483648, -1, 5, 99, 0] with ovf := .wrap })
      (fun t => decide ((t.cell 5).toInt = -2147483648 ∧ t.pc = 4)) = true := by decide
theorem test_lt_is_signed :
    nextIs (step (machine [1107, -2147483648, 2147483647, 5, 99, -1])) (fun t => decide (t.cell 5 = 1)) = true := by
  decide
/-- The result overwrites a source cell. -/
theorem test_eq_over_its_source :
    nextIs (step (machine [108, 8, 5, 5, 99, 8])) (fun t => decide (t.cell 5 = 1 ∧ t.pc = 4)) = true := by decide
theorem test_jt_takes_negative_condition :
    nextIs (step (machine [1105, -1, 4, 99, 99])) (fun t => decide (t.pc = 4)) = true := by decide
/-- The target is resolved even when the jump is not taken (D18). -/
theorem test_jt_resolves_its_target_first :
    nextIs (step (machine [105, 0, 50, 99])) (fun t => decide (t.fault = some .outOfBounds ∧ t.faultInfo = 50)) = true := by
  decide
theorem test_jf_falls_through :
    nextIs (step (machine [1106, 7, 4, 99, 99])) (fun t => decide (t.pc = 3)) = true := by decide
theorem test_in_holds_the_pc :
    nextIs (step (machine [3, 0, 4, 0, 99])) (fun t => decide (t.runState = .awaitingInput ∧ t.pc = 0)) = true := by
  decide
/-- The operand is not resolved in the step phase: no fault yet. -/
theorem test_out_does_not_resolve :
    nextIs (step (machine [4, 7, 99])) (fun t => decide (t.runState = .awaitingOutput ∧ t.fault = none)) = true := by
  decide
theorem test_halt_holds_the_pc :
    nextIs (step (machine [99])) (fun t => decide (t.runState = .stopped ∧ t.pc = 0)) = true := by decide
/-- A word placed at reset's pc is the first instruction. -/
theorem test_withFetchWord_runs_it :
    nextIs (step (State.reset.withFetchWord 8 1)) (fun t => decide (t.cell 0 = 2 ∧ t.pc = 4)) = true := by decide

/-! ## Host commands -/

theorem test_supply_immediate_overwrites_its_operand :
    (supplyInput 42 (waiting [103, 5, 99] .awaitingInput)) =
      ({ machine [103, 42, 99] with pc := 2 }, .done) := by decide
theorem test_take_bad_position_source :
    (takeOutput (waiting [4, 7, 99] .awaitingOutput)).2 = .fault .outOfBounds 7 := by decide
theorem test_run_counts : (run 3 (machine [1, 0, 0, 0, 99])).map Prod.snd = some (.count 1) := by decide
theorem test_run_of_a_loop_has_no_result : run 3 (machine [1105, 1, 0]) = none := by decide
theorem test_create_empty : create .fault [] = none := rfl
theorem test_peek : peek 1 (machine [5, 6]) = some 6 ∧ peek 2 (machine [5, 6]) = none ∧ peek (-1) (machine [5, 6]) = none := by
  decide

/-! ## Witnesses: states and operands that meet the hypotheses of the statements -/

theorem witness_DecodeOfEncodeIsTheInstruction : (Instr.jt { iip with upper := 21474 } (-1) 0).wellFormed := by decide

theorem witness_DecodedWordsAreTheEncoding :
    decode [2147411199] = .ok (.halt ⟨.immediate, .immediate, .immediate, 21474⟩) := rfl

theorem witness_NegativeWordsAreIllegalOpcodes : (-1 : Word).toInt < 0 ∧ (-2147483648 : Word).toInt < 0 := by decide

theorem witness_HighDigitsAreIgnored :
    decodeWord 11199 = .ok ⟨.halt, ⟨.immediate, .immediate, .immediate, 0⟩⟩ ∧
      (2147411199 : Word).toInt = (11199 : Word).toInt + (21474 : Nat) * 100000 := ⟨rfl, by decide⟩

theorem witness_StepExecutesTheDecodedInstruction :
    Fetches (machineAt [0, 99] 1) ∧ decode (machineAt [0, 99] 1).instrCells = .ok (.halt ppp) := ⟨by decide, rfl⟩

theorem witness_StepRunsTheInstructionStoredAtThePc :
    Fetches (machineAt [0, 1101, 2, 3, 0] 1) ∧ (Instr.add iip 2 3 0).wellFormed ∧
      StoredAtPc (machineAt [0, 1101, 2, 3, 0] 1) (.add iip 2 3 0) := by decide

theorem witness_StepReportsARecordedFaultAgain :
    (faulted (machine [99]) .outOfBounds (-1)).fault = some .outOfBounds := rfl

theorem witness_StepGatesOnTheRunState :
    (waiting [99] .stopped).fault = none ∧ (waiting [99] .stopped).runState = .stopped ∧
      (waiting [3, 0] .awaitingInput).runState = .awaitingInput ∧
      (waiting [4, 0] .awaitingOutput).runState = .awaitingOutput := by decide

/-- The last negative pc, the first pc past the end, and the largest. -/
theorem witness_FetchOutsideMemory :
    (machineAt [99] (-1)).pc.toInt < 0 ∧ (machineAt [99] 1).memLen ≤ (machineAt [99] 1).pc.toInt ∧
      0 ≤ (machineAt [99] 1).pc.toInt ∧ (machineAt [99] 2147483647).memLen ≤ (machineAt [99] 2147483647).pc.toInt ∧
      (machineAt [99] 1).fault = none ∧ (machineAt [99] 1).runState = .running := by decide

theorem witness_IllegalWordsFault :
    Fetches (machine [98]) ∧
      Int.tmod ((machine [98]).cell 0).toInt 100 ∉ ([1, 2, 3, 4, 5, 6, 7, 8, 99] : List Int) ∧
      Int.tmod ((machine [20099]).cell 0).toInt 100 ∈ ([1, 2, 3, 4, 5, 6, 7, 8, 99] : List Int) ∧
      (∃ k ∈ [2, 3, 4], digit ((machine [20099]).cell 0).toInt k ≠ 0 ∧ digit ((machine [20099]).cell 0).toInt k ≠ 1) := by
  decide

/-- One cell short; an illegal opcode and an illegal mode where cells are missing too. -/
theorem witness_TruncatedInstructionsStop :
    Fetches (machine [1, 0, 0]) ∧ decodeWord ((machine [1, 0, 0]).cell 0) = .ok ⟨.add, ppp⟩ ∧
      (machine [1, 0, 0]).memLen < (machine [1, 0, 0]).pc.toInt + Kind.add.width ∧
      Fetches (machine [98]) ∧ decodeWord ((machine [98]).cell 0) = .error (.invalidOpcode 98) ∧
      Fetches (machine [201]) ∧ decodeWord ((machine [201]).cell 0) = .error (.invalidMode 201) :=
  ⟨by decide, rfl, by decide, by decide, rfl, by decide, rfl⟩

theorem witness_StepReportsTheStatusOfItsInstruction :
    Fetches (machine [3, 0]) ∧ decode (machine [3, 0]).instrCells = .ok (.inp ppp 0) ∧
      step (machine [3, 0]) = .next (waiting [3, 0] .awaitingInput) ∧
      decode (machine [101, 0, 4, 0]).instrCells = .ok (.add ⟨.immediate, .position, .position, 0⟩ 0 4 0) ∧
      step (machine [101, 0, 4, 0]) = .next (faulted (machine [101, 0, 4, 0]) .outOfBounds 4) :=
  ⟨by decide, rfl, rfl, rfl, rfl⟩

/-- Operand 1: the address at the end of memory, and -1. -/
theorem witness_operand1_unreadable :
    Unreadable (machine [1, 5, 0, 0, 99]) 5 .position ∧ Unreadable (machine [1, -1, 0, 0, 99]) (-1) .position := by
  decide

/-- Operand 1 at the last cell, operand 2 past it. -/
theorem witness_operand2_unreadable :
    Reads (machine [1, 4, 5, 0, 99]) 4 .position 99 ∧ Unreadable (machine [1, 4, 5, 0, 99]) 5 .position := by decide

/-- The first sums and products that do not fit, on both sides. -/
theorem witness_AddOverflows :
    Reads (machine [1101, 2147483647, 1, 0]) 2147483647 .immediate 2147483647 ∧
      Reads (machine [1101, 2147483647, 1, 0]) 1 .immediate 1 ∧
      ¬Fits ((2147483647 : Word).toInt + (1 : Word).toInt) ∧ (machine [1101, 2147483647, 1, 0]).ovf = .fault ∧
      ¬Fits ((-2147483648 : Word).toInt + (-1 : Word).toInt) := by decide

theorem witness_MulOverflows :
    Reads (machine [1102, 46341, 46341, 0]) 46341 .immediate 46341 ∧
      ¬Fits ((46341 : Word).toInt * (46341 : Word).toInt) ∧ (machine [1102, 46341, 46341, 0]).ovf = .fault ∧
      ¬Fits ((-2147483648 : Word).toInt * (-1 : Word).toInt) := by decide

/-- A fitting result, at the largest word, and no valid destination. -/
theorem witness_arithmetic_bad_destination :
    Reads (machine [1101, 2147483646, 1, 4]) 2147483646 .immediate 2147483646 ∧
      Fits ((2147483646 : Word).toInt + (1 : Word).toInt) ∧
      Fits ((46340 : Word).toInt * (46340 : Word).toInt) ∧ ¬(machine [1101, 2147483646, 1, 4]).ValidAddr 4 := by
  decide

/-- A fitting result, at the smallest word, into the last cell; and one that wraps. -/
theorem witness_arithmetic_completes :
    Reads (machine [1101, -2147483647, -1, 3]) (-2147483647) .immediate (-2147483647) ∧
      Fits ((-2147483647 : Word).toInt + (-1 : Word).toInt) ∧
      Fits ((-2147483648 : Word).toInt * (1 : Word).toInt) ∧ (machine [1101, -2147483647, -1, 3]).ValidAddr 3 ∧
      ({ machine [1101, -2147483647, -1, 3] with ovf := .wrap } : State).ovf = .wrap := by decide

/-- Both outcomes of LT and EQ, with a valid and an invalid destination. -/
theorem witness_comparisons :
    Reads (machine [107, -1, 3, 3]) (-1) .immediate (-1) ∧ Reads (machine [107, -1, 3, 3]) 3 .position 3 ∧
      (machine [107, -1, 3, 3]).ValidAddr 3 ∧ ¬(machine [107, -1, 3, 3]).ValidAddr 4 ∧
      (-1 : Word).toInt < (3 : Word).toInt ∧ ¬(3 : Word).toInt < (3 : Word).toInt ∧
      (3 : Word).toInt = (3 : Word).toInt ∧ ¬(-1 : Word).toInt = (3 : Word).toInt := by decide

/-- Both outcomes of JT and JF. -/
theorem witness_jumps :
    Reads (machine [1105, -1, -3]) (-1) .immediate (-1) ∧ Reads (machine [1105, -1, -3]) (-3) .immediate (-3) ∧
      (-1 : Word).toInt ≠ 0 ∧ (0 : Word).toInt = 0 ∧ Reads (machine [6, 3, 4, 0, 7]) 3 .position 0 ∧
      Reads (machine [6, 3, 4, 0, 7]) 4 .position 7 := by decide

/-- IN and OUT at the last cell are truncated. -/
theorem witness_announcements :
    (machine [3]).fault = none ∧ Fetches (machine [3]) ∧ decodeWord ((machine [3]).cell 0) = .ok ⟨.inp, ppp⟩ ∧
      (machine [3]).memLen < (machine [3]).pc.toInt + 2 ∧ Fetches (machine [4]) ∧
      decodeWord ((machine [4]).cell 0) = .ok ⟨.out, ppp⟩ ∧ (machine [4]).memLen < (machine [4]).pc.toInt + 2 :=
  ⟨rfl, by decide, rfl, by decide, by decide, rfl, by decide⟩

theorem witness_HaltStops : (machine [99]).fault = none := rfl

theorem witness_FitFollowsTheOverflowPolicy :
    Fits 2147483647 ∧ ¬Fits 2147483648 ∧ Fits (-2147483648) ∧ ¬Fits (-2147483649) := by decide

/-- The recorded word keeps its ignored digits: 101101, not 1101. -/
theorem witness_OverflowRecordsTheFetchedWord :
    Fetches (machine [101101, 2147483647, 1, 0]) ∧
      step (machine [101101, 2147483647, 1, 0]) =
        .next (faulted (machine [101101, 2147483647, 1, 0]) .arithmeticOverflow 101101) := ⟨by decide, rfl⟩

theorem witness_StoringInstructionsFrame :
    exec (.lt iip 1 2 0) (machine [1107, 1, 2, 0]) = .next { machine [1, 1, 2, 0] with pc := 4 } ∧
      exec (.add iip 1 2 4) (machine [1101, 1, 2, 4]) = .next (faulted (machine [1101, 1, 2, 4]) .outOfBounds 4) ∧
      ¬(machine [1101, 1, 2, 4]).ValidAddr 4 := ⟨rfl, rfl, by decide⟩

theorem witness_NonStoringInstructionsFrame :
    exec (.out ppp 0) (machine [4, 0]) = .next (waiting [4, 0] .awaitingOutput) ∧
      exec (.jf iip 0 7) (machine [1106, 0, 7]) = .next (machineAt [1106, 0, 7] 7) := ⟨rfl, rfl⟩

/-- The four boundary addresses of a memory of two cells. -/
theorem witness_address_bounds :
    (-1 : Word).toInt < 0 ∧ ((machine [5, 6]).memLen : Int) ≤ (2 : Word).toInt ∧ 0 ≤ (0 : Word).toInt ∧
      (1 : Word).toInt < (machine [5, 6]).memLen ∧ (0 : Word) ≠ 1 := by decide

theorem witness_create : ∃ m, create .fault [5, 0] = some m ∧ m.memLen = 2 := ⟨_, rfl, rfl⟩

/-- A command of each kind has a result. -/
theorem witness_perform :
    perform 0 .copy (machine [99]) = some (machine [99], .machine (machine [99])) ∧
      perform 0 .takeOutput (waiting [104, 7] .awaitingOutput) = some (machineAt [104, 7] 2, .value 7) ∧
      perform 1 .run (machine [99]) = some (waiting [99] .stopped, .count 0) ∧
      perform 0 .step (waiting [3, 0] .awaitingInput) =
        some (faulted (waiting [3, 0] .awaitingInput) .contractViolation 1, .fault .contractViolation 1) :=
  ⟨rfl, by decide, by decide, by decide⟩

theorem witness_OnlyStoresAndInputWriteMemory :
    step (machine [1101, 2, 3, 0]) = .next { machine [5, 2, 3, 0] with pc := 4 } ∧
      (machine [5, 2, 3, 0]).mem ≠ (machine [1101, 2, 3, 0]).mem := ⟨rfl, by decide⟩

theorem witness_PcTakesOnlyTheMultiplexerInputs :
    step (machine [1105, 1, -3]) = .next (machineAt [1105, 1, -3] (-3)) ∧
      (machineAt [1105, 1, -3] (-3)).pc ≠ (machine [1105, 1, -3]).pc := ⟨rfl, by decide⟩

/-- The invariant of a Machine after create. -/
theorem machine_inv (cells : List Int) (h1 : 1 ≤ cells.length) (h2 : cells.length ≤ Config.maxMemLen) :
    (machine cells).Inv := by
  refine ⟨⟨h1, h2, Memory.ofWords_wf _ _, fun c hc => ?_⟩, fun _ => rfl, nofun, nofun⟩
  have := (Memory.mem_ofWords hc).2.1
  simpa [machine] using this

/-- An instruction that ends exactly at the end of memory. -/
theorem witness_SequentialAdvanceNeverWraps :
    (machine [1101, 1, 1, 3]).Inv ∧ (machine [1101, 1, 1, 3]).ValidAddr (machine [1101, 1, 1, 3]).pc ∧
      decode (machine [1101, 1, 1, 3]).instrCells = .ok (.add iip 1 1 3) :=
  ⟨machine_inv _ (by decide) (by decide), by decide, rfl⟩

theorem witness_EveryStepKeepsTheInvariant :
    (machine [3, 0]).Inv ∧ step (machine [3, 0]) = .next (waiting [3, 0] .awaitingInput) :=
  ⟨machine_inv _ (by decide) (by decide), rfl⟩

theorem witness_EveryCommandKeepsTheInvariant :
    (machine [99]).Inv ∧ perform 0 .copy (machine [99]) = some (machine [99], .machine (machine [99])) :=
  ⟨machine_inv _ (by decide) (by decide), rfl⟩

/-- A pending IN whose cells end memory: its operand names cell 1 (valid) or cell 2 (not), or is Immediate. -/
theorem waiting_in_inv (m : Int) (a : Int) (h : Header)
    (hd : decodeWord ((waiting [m, a] .awaitingInput).cell 0) = .ok ⟨.inp, h⟩) :
    (waiting [m, a] .awaitingInput).Inv := by
  have hi := machine_inv [m, a] (by simp) (by simp [Config.maxMemLen])
  have hc : (waiting [m, a] .awaitingInput).Pends .inp :=
    ⟨show (0 : Int) ≤ (0 : Word).toInt by decide, show (0 : Word).toInt + 2 ≤ ((2 : Nat) : Int) by decide, h, hd⟩
  exact ⟨⟨hi.memory.len_pos, hi.memory.len_le, hi.memory.wf, hi.memory.inside⟩, hi.no_info, fun _ => hc, nofun⟩

theorem witness_SupplyInputCompletesIn :
    ((waiting [3, 1] .awaitingInput).Inv ∧ decodeWord ((waiting [3, 1] .awaitingInput).cell 0) = .ok ⟨.inp, ppp⟩ ∧
      (waiting [3, 1] .awaitingInput).ValidAddr 1) ∧
    ((waiting [3, 2] .awaitingInput).Inv ∧ decodeWord ((waiting [3, 2] .awaitingInput).cell 0) = .ok ⟨.inp, ppp⟩ ∧
      ¬(waiting [3, 2] .awaitingInput).ValidAddr 2) ∧
    ((waiting [103, 9] .awaitingInput).Inv ∧
      decodeWord ((waiting [103, 9] .awaitingInput).cell 0) = .ok ⟨.inp, ⟨.immediate, .position, .position, 0⟩⟩) ∧
    (waiting [3, 1] .awaitingInput).fault = none ∧ (machine [3, 1]).runState ≠ .awaitingInput :=
  ⟨⟨waiting_in_inv _ _ _ rfl, rfl, by decide⟩, ⟨waiting_in_inv _ _ _ rfl, rfl, by decide⟩,
    ⟨waiting_in_inv _ _ _ rfl, rfl⟩, rfl, by decide⟩

/-- The same of a pending OUT. -/
theorem waiting_out_inv (m : Int) (a : Int) (h : Header)
    (hd : decodeWord ((waiting [m, a] .awaitingOutput).cell 0) = .ok ⟨.out, h⟩) :
    (waiting [m, a] .awaitingOutput).Inv := by
  have hi := machine_inv [m, a] (by simp) (by simp [Config.maxMemLen])
  have hc : (waiting [m, a] .awaitingOutput).Pends .out :=
    ⟨show (0 : Int) ≤ (0 : Word).toInt by decide, show (0 : Word).toInt + 2 ≤ ((2 : Nat) : Int) by decide, h, hd⟩
  exact ⟨⟨hi.memory.len_pos, hi.memory.len_le, hi.memory.wf, hi.memory.inside⟩, hi.no_info, nofun, fun _ => hc⟩

theorem witness_TakeOutputCompletesOut :
    ((waiting [4, 1] .awaitingOutput).Inv ∧ decodeWord ((waiting [4, 1] .awaitingOutput).cell 0) = .ok ⟨.out, ppp⟩ ∧
      Reads (waiting [4, 1] .awaitingOutput) 1 .position 1) ∧
    ((waiting [4, 2] .awaitingOutput).Inv ∧ decodeWord ((waiting [4, 2] .awaitingOutput).cell 0) = .ok ⟨.out, ppp⟩ ∧
      Unreadable (waiting [4, 2] .awaitingOutput) 2 .position) ∧
    (waiting [4, 1] .awaitingOutput).fault = none ∧ (machine [4, 1]).runState ≠ .awaitingOutput :=
  ⟨⟨waiting_out_inv _ _ _ rfl, rfl, by decide⟩, ⟨waiting_out_inv _ _ _ rfl, rfl, by decide⟩, rfl, by decide⟩

theorem witness_SecondTakeOutputIsAViolation :
    (takeOutput (waiting [104, 7] .awaitingOutput)).2 = .value 7 := by decide

theorem witness_ContractMatrixDecidesViolations :
    (waiting [3, 0] .awaitingInput).fault = none ∧ allowed .step (waiting [3, 0] .awaitingInput).runState = false ∧
      perform 0 .step (waiting [3, 0] .awaitingInput) =
        some (faulted (waiting [3, 0] .awaitingInput) .contractViolation 1, .fault .contractViolation 1) := by decide

theorem witness_StoppedIsTerminal :
    (waiting [99] .stopped).runState = .stopped ∧
      perform 0 .takeOutput (waiting [99] .stopped) =
        some (faulted (waiting [99] .stopped) .contractViolation 3, .fault .contractViolation 3) ∧
      perform 0 .step (waiting [99] .stopped) = some (waiting [99] .stopped, .status .stopped) ∧
      perform 0 .run (waiting [99] .stopped) = some (waiting [99] .stopped, .count 0) := by decide

theorem witness_RecordedFaultIsSticky :
    (faulted (machine [99]) .invalidMode 299).fault = some .invalidMode ∧
      perform 0 .run (faulted (machine [99]) .invalidMode 299) =
        some (faulted (machine [99]) .invalidMode 299, .fault .invalidMode 299) := by decide

theorem witness_FaultsArePrecise :
    perform 0 .step (machine [0]) = some (faulted (machine [0]) .invalidOpcode 0, .fault .invalidOpcode 0) ∧
      perform 0 .step (machine [99]) = some (waiting [99] .stopped, .status .stopped) := by decide

theorem witness_RunCountsItsOkSteps :
    RunsTo (machine [1105, 1, 3, 99]) { machineAt [1105, 1, 3, 99] 3 with runState := .stopped } (.count 1) ∧
      RunsTo (waiting [3, 0] .awaitingInput) (waiting [3, 0] .awaitingInput) (.count 0) ∧
      RunsTo (faulted (machine [99]) .invalidMode 299) (faulted (machine [99]) .invalidMode 299)
        (.fault .invalidMode 299) := ⟨⟨2, by decide⟩, ⟨0, by decide⟩, ⟨0, by decide⟩⟩

theorem witness_RunResultIsUnique : RunsTo (machine [99]) (waiting [99] .stopped) (.count 0) := ⟨1, by decide⟩

theorem witness_SelfLoopNeverReturns :
    (Fetches (machine [1105, 1, 0]) ∧ Reads (machine [1105, 1, 0]) 1 .immediate 1 ∧ (1 : Word).toInt ≠ 0 ∧
      StoredAtPc (machine [1105, 1, 0]) (.jt iip 1 (machine [1105, 1, 0]).pc)) ∧
    (Fetches (machine [1106, 0, 0]) ∧ Reads (machine [1106, 0, 0]) 0 .immediate 0 ∧ (0 : Word).toInt = 0 ∧
      StoredAtPc (machine [1106, 0, 0]) (.jf iip 0 (machine [1106, 0, 0]).pc)) := by decide

theorem witness_PeekAndCopyOnlyObserve : (machine [5, 6]).ValidAddr 1 ∧ ¬(machine [5, 6]).ValidAddr 2 := by decide

theorem witness_CommandsLeaveOtherMachinesAlone :
    World.perform 0 [machine [99], machine [3, 0]] 1 .copy =
      some ([machine [99], machine [3, 0], machine [3, 0]], .machine (machine [3, 0])) := by decide

end Sys2Proof.Tests
end

/-! ## Stopped is terminal (10_state.md R23) -/

namespace Sys2Proof.Machine

/-- The run-state gate of supply_input and take_output (46_host_interface.md R202). -/
theorem completion_of_runState_ne {own : RunState} {code : Word} {body : Except Raised (State × Response)} {s : State}
    (hf : s.fault = none) (hr : s.runState ≠ own) :
    completion own code body s =
      (s.takeFault ⟨.contractViolation, code⟩, .fault .contractViolation code) := by
  simp [completion, hf, hr, finishCommand]

theorem supplyInput_of_not_awaitingInput {s : State} (v : Word) (hf : s.fault = none)
    (hr : s.runState ≠ .awaitingInput) :
    supplyInput v s = (s.takeFault ⟨.contractViolation, cmdSupply⟩, .fault .contractViolation cmdSupply) :=
  completion_of_runState_ne hf hr

theorem takeOutput_of_not_awaitingOutput {s : State} (hf : s.fault = none) (hr : s.runState ≠ .awaitingOutput) :
    takeOutput s = (s.takeFault ⟨.contractViolation, cmdTake⟩, .fault .contractViolation cmdTake) :=
  completion_of_runState_ne hf hr

theorem step_of_stopped {s : State} (hf : s.fault = none) (hr : s.runState = .stopped) : step s = .next s := by
  simp [step, frontEnd, hf, hr]

theorem stepCommand_of_stopped {s : State} (hf : s.fault = none) (hr : s.runState = .stopped) :
    stepCommand s = some (s, .status .stopped) := by
  simp [stepCommand_of_step (step_of_stopped hf hr), State.report, RunState.status, hf, hr]

theorem run_of_not_running {s : State} (fuel : Nat) (hf : s.fault = none) (hr : s.runState ≠ .running) :
    run fuel s = some (s, .count 0) := by
  simp [run, hf, hr]

/-- `t` is Stopped, with the memory and the pc of `s`. -/
structure StoppedAs (s t : State) : Prop where
  stopped : t.runState = .stopped
  mem : t.mem = s.mem
  pc : t.pc = s.pc

theorem StoppedAs.takeFault {s t : State} (h : StoppedAs s t) (e : Raised) : StoppedAs s (t.takeFault e) :=
  ⟨h.stopped, h.mem, h.pc⟩

theorem StoppedAs.step {s t u : State} (h : StoppedAs s t) (hu : step t = .next u) : StoppedAs s u := by
  have hr := h.stopped
  cases step_cases hu with
  | recordedFault | alreadyStopped => exact h
  | awaiting => exact h.takeFault _
  | negativePc _ hrun | ranOff _ hrun | illegalOpcode _ _ hrun | illegalMode _ _ hrun | truncated _ hrun
  | executed _ _ _ hrun => cases hr.symm.trans hrun

theorem StoppedAs.supplyInput {s t : State} (v : Word) (h : StoppedAs s t) : StoppedAs s (supplyInput v t).1 := by
  rcases supplyInput_cases v t with ⟨-, e, he⟩ | ⟨c, -, he⟩ | ⟨-, hr, -⟩
  · exact he ▸ h.takeFault e
  · exact he ▸ h
  · cases h.stopped.symm.trans hr

theorem StoppedAs.takeOutput {s t : State} (h : StoppedAs s t) : StoppedAs s (takeOutput t).1 := by
  rcases takeOutput_cases t with ⟨-, e, he⟩ | ⟨c, -, he⟩ | ⟨-, hr, -⟩
  · exact he ▸ h.takeFault e
  · exact he ▸ h
  · cases h.stopped.symm.trans hr

theorem StoppedAs.perform {fuel : Nat} {c : Command} {s t u : State} {r : Response} (h : StoppedAs s t)
    (hu : perform fuel c t = some (u, r)) : StoppedAs s u :=
  perform_keeps (P := StoppedAs s) StoppedAs.step StoppedAs.supplyInput StoppedAs.takeOutput h hu

/-- Settles O47: `StoppedAs` is kept by every command, and the gates of the commands give the reports. -/
theorem stoppedIsTerminal : Obligations.StoppedIsTerminal := by
  intro fuel c s t r hr h
  obtain ⟨hstop, hmem, hpc⟩ := StoppedAs.perform ⟨hr, rfl, rfl⟩ h
  refine ⟨hstop, hmem, hpc, ?_, ?_, ?_⟩
  · rintro hf (⟨v, rfl⟩ | rfl)
    · rw [perform_supplyInput, supplyInput_of_not_awaitingInput v hf (by simp [hr])] at h
      cases h; exact ⟨rfl, rfl⟩
    · rw [perform_takeOutput, takeOutput_of_not_awaitingOutput hf (by simp [hr])] at h
      cases h; exact ⟨rfl, rfl⟩
  · rintro hf rfl
    rw [perform_step, stepCommand_of_stopped hf hr] at h
    cases h; rfl
  · rintro hf rfl
    rw [perform_run, run_of_not_running fuel hf (by simp [hr])] at h
    cases h; rfl

end Sys2Proof.Machine

/-! ## Memory reads and the length of memory (20_memory.md R41, R43) -/

namespace Sys2Proof.Machine

/-- Settles O31: the two halves are `MemRead` at an invalid and at a valid address. -/
theorem readsCheckTheirBounds : Obligations.ReadsCheckTheirBounds := by
  intro s a
  refine ⟨fun hout => memRead_invalid ?_, fun hlo hhi => memRead_valid ⟨hlo, hhi⟩⟩
  rintro ⟨hlo, hhi⟩
  omega

/-- `t` has the parameters `MEM_LEN` and `OVF` of `s`. -/
structure SameParameters (s t : State) : Prop where
  memLen : t.memLen = s.memLen
  ovf : t.ovf = s.ovf

theorem SameParameters.refl (s : State) : SameParameters s s := ⟨rfl, rfl⟩

theorem SameParameters.trans {s t u : State} (h : SameParameters s t) (h' : SameParameters t u) :
    SameParameters s u :=
  ⟨h'.memLen.trans h.memLen, h'.ovf.trans h.ovf⟩

theorem SameParameters.takeFault (s : State) (e : Raised) : SameParameters s (s.takeFault e) := ⟨rfl, rfl⟩

theorem SameParameters.setRunState (s : State) (r : RunState) : SameParameters s (s.setRunState r) := ⟨rfl, rfl⟩

/-- Of an instruction's effects (fault, cell and pc, pc, run state) none writes a parameter. -/
theorem exec_sameParameters {i : Instr} {s t : State} (h : exec i s = .next t) : SameParameters s t := by
  rcases exec_cases h with ⟨e, rfl, -⟩ | ⟨-, d, r, -, -, rfl⟩ | ⟨-, y, p, -, -, rfl | rfl⟩ | ⟨-, rfl⟩ | ⟨-, rfl⟩ |
    ⟨-, rfl⟩
  · exact .takeFault s e
  · exact ⟨rfl, rfl⟩
  · exact ⟨rfl, rfl⟩
  · exact ⟨rfl, rfl⟩
  · exact .setRunState s _
  · exact .setRunState s _
  · exact .setRunState s _

theorem step_sameParameters {s t : State} (h : step s = .next t) : SameParameters s t := by
  cases step_cases h with
  | recordedFault | alreadyStopped => exact .refl s
  | awaiting | negativePc | illegalOpcode | illegalMode => exact .takeFault s _
  | ranOff | truncated => exact .setRunState s _
  | executed i _ _ _ _ _ hexec => exact exec_sameParameters hexec

theorem supplyInput_sameParameters (v : Word) (s : State) : SameParameters s (supplyInput v s).1 := by
  rcases supplyInput_cases v s with ⟨-, e, he⟩ | ⟨c, -, he⟩ | ⟨-, -, t, hok, he⟩ <;> rw [he]
  · exact .takeFault s e
  · exact .refl s
  · obtain ⟨m1, raw1, -, -, rfl⟩ := completeIn_ok hok
    exact ⟨rfl, rfl⟩

theorem takeOutput_sameParameters (s : State) : SameParameters s (takeOutput s).1 := by
  rcases takeOutput_cases s with ⟨-, e, he⟩ | ⟨c, -, he⟩ | ⟨-, -, ⟨t, x⟩, hok, he⟩ <;> rw [he]
  · exact .takeFault s e
  · exact .refl s
  · obtain ⟨m1, raw1, -, -, rfl⟩ := completeOut_ok hok
    exact ⟨rfl, rfl⟩

theorem perform_sameParameters {fuel : Nat} {c : Command} {s t : State} {r : Response}
    (h : perform fuel c s = some (t, r)) : SameParameters s t :=
  perform_keeps (P := SameParameters s) (fun hs ht => hs.trans (step_sameParameters ht))
    (fun v hs => hs.trans (supplyInput_sameParameters v _)) (fun hs => hs.trans (takeOutput_sameParameters _))
    (.refl s) h

/-- Settles O33: create takes the snapshot's length, and every command keeps `SameParameters`. -/
theorem memoryLengthNeverChanges : Obligations.MemoryLengthNeverChanges := by
  refine ⟨fun ovf ws m h => ?_, fun fuel c s t r h => ?_⟩
  · obtain ⟨-, -, rfl⟩ := create_some h
    rfl
  · obtain ⟨hlen, hovf⟩ := perform_sameParameters h
    exact ⟨hlen, hovf⟩

end Sys2Proof.Machine

/-! ## Machines share nothing (20_memory.md R58) -/

namespace Sys2Proof.Machine

/-- A command that the world answers is that command performed by the Machine addressed. -/
theorem World.perform_some {fuel : Nat} {w w' : World} {i : Nat} {c : Command} {r : Response}
    (h : World.perform fuel w i c = some (w', r)) :
    ∃ s t, w[i]? = some s ∧ Machine.perform fuel c s = some (t, r) ∧ w' = World.after w i t r := by
  unfold World.perform at h
  split at h
  · cases h
  rename_i s hs
  split at h
  · cases h
  rename_i t r' ht
  cases h
  exact ⟨s, t, hs, ht, rfl⟩

/-- What becomes of the Machines: the one addressed is replaced, and at most one is added at the end. -/
theorem World.after_eq_set_append (w : World) (i : Nat) (t : State) (r : Response) :
    ∃ made : World, World.after w i t r = w.set i t ++ made := by
  cases r with
  | machine m => exact ⟨[m], rfl⟩
  | status | fault | done | value | count | flag | outOfBounds | constructionError =>
    exact ⟨[], (List.append_nil _).symm⟩

theorem World.after_getElem?_of_ne {w : World} {i j : Nat} (t : State) (r : Response) (hne : j ≠ i)
    (hj : j < w.length) : (World.after w i t r)[j]? = w[j]? := by
  obtain ⟨made, hafter⟩ := World.after_eq_set_append w i t r
  rw [hafter, List.getElem?_append_left (by simpa using hj), List.getElem?_set_ne hne.symm]

/-- copy puts the state addressed back where it was and adds it once more. -/
theorem World.after_copy {w : World} {i : Nat} {s : State} (hs : w[i]? = some s) :
    World.after w i s (.machine s) = w ++ [s] := by
  obtain ⟨hi, rfl⟩ := List.getElem?_eq_some_iff.1 hs
  exact congrArg (· ++ [w[i]]) (List.set_getElem_self hi)

/-- Settles O55: the command replaces the Machine addressed only, and copy replaces it by itself. -/
theorem commandsLeaveOtherMachinesAlone : Obligations.CommandsLeaveOtherMachinesAlone := by
  intro fuel w w' i c r h
  obtain ⟨s, t, hs, ht, rfl⟩ := World.perform_some h
  refine ⟨fun j hne hj => World.after_getElem?_of_ne t r hne hj, ?_⟩
  rintro rfl
  rw [perform_copy] at ht
  cases ht
  exact ⟨s, hs, World.after_copy hs⟩

end Sys2Proof.Machine

/-! ## Instruction words decode to the kind and header they encode (30_encoding.md R62, R74, R75) -/

namespace Sys2Proof

/-- The word of a header whose ignored digits fit decodes to that header, the ignored digits included. -/
theorem decodeWord_headerWord {k : Kind} {h : Header} (hu : h.upper ≤ Config.maxUpper) :
    decodeWord (headerWord k h) = .ok ⟨k, h⟩ := by
  obtain ⟨hop, hm1, hm2, hm3, hupper⟩ := headerValue_digits k h
  have hrem : truncRem (headerValue k h) 100 = k.opcode := by
    rw [← hop]
    exact truncRem_ofNat _ 100
  have hdiv : truncDiv (headerValue k h) 100000 = h.upper := by
    rw [← hupper]
    exact truncDiv_ofNat _ 100000
  simp [decodeWord, headerWord_toInt hu, hrem, hdiv, digit_ofNat, hm1, hm2, hm3]

/-- The canonical word is the word of a header without ignored digits. -/
theorem headerValue_canonical (k : Kind) (m1 m2 m3 : Mode) :
    headerValue k ⟨m1, m2, m3, 0⟩ = m3.digit * 10000 + m2.digit * 1000 + m1.digit * 100 + k.opcode := by
  simp [headerValue]

/-- The largest canonical word is that of HALT with three immediate modes. -/
theorem headerValue_canonical_le (k : Kind) (m1 m2 m3 : Mode) : headerValue k ⟨m1, m2, m3, 0⟩ ≤ 11199 := by
  have := k.opcode_range
  have := m1.digit_le
  have := m2.digit_le
  have := m3.digit_le
  rw [headerValue_canonical]
  omega

/-- Settles O3: the canonical word is a header's word, and a header's word decodes to that header. -/
theorem canonicalWordsRoundTrip : Obligations.CanonicalWordsRoundTrip := by
  intro k m1 m2 m3
  rw [← headerValue_canonical]
  exact ⟨headerValue_canonical_le k m1 m2 m3, decodeWord_headerWord (Nat.zero_le _)⟩

end Sys2Proof

/-! ## The run-state gate of step (40_step_and_decode.md R102) -/

namespace Sys2Proof.Machine

/-- A Machine without a fault reports the status of its run state (R116). -/
theorem State.report_of_no_fault {s : State} (hf : s.fault = none) : s.report = .status s.runState.status := by
  rw [State.report, hf]

theorem step_of_awaiting {s : State} (hf : s.fault = none)
    (hr : s.runState = .awaitingInput ∨ s.runState = .awaitingOutput) :
    step s = .next (s.takeFault ⟨.contractViolation, cmdStep⟩) := by
  rcases hr with hr | hr
  · simp [step, frontEnd, hf, hr]
  · simp [step, frontEnd, hf, hr]

/-- Settles O12: the gate of a Stopped Machine, and the gate of an awaiting one. -/
theorem stepGatesOnTheRunState : Obligations.StepGatesOnTheRunState := by
  intro s hf
  refine ⟨fun hr => ⟨step_of_stopped hf hr, stepCommand_of_stopped hf hr⟩, fun hr => ?_⟩
  have hstep := step_of_awaiting hf hr
  exact ⟨hstep, stepCommand_of_step hstep⟩

end Sys2Proof.Machine

/-! ## Rejected words: decoding comes before the width check (40_step_and_decode.md R104 to R106) -/

namespace Sys2Proof

theorem Kind.width_eq_nparams_succ (k : Kind) : k.width = k.nparams + 1 := by cases k <;> rfl

/-- A rejected first word is rejected whatever follows it, missing words included. -/
theorem decode_cons_of_error {w : Word} {e : Reject} (rest : List Word) (h : decodeWord w = .error e) :
    decode (w :: rest) = .error e := by
  simp [decode, h]

/-- A legal first word with fewer words after it than its kind has parameters is truncated. -/
theorem decode_cons_of_short {w : Word} {d : Decoded} {rest : List Word} (h : decodeWord w = .ok d)
    (hshort : rest.length < d.kind.nparams) : decode (w :: rest) = .error .truncated := by
  simp [decode, h, assemble_none.2 hshort]

end Sys2Proof

namespace Sys2Proof.Machine

/-- Where a step from `s` ends when the cells at the pc are rejected: an illegal word faults (R104, R105), a truncated
instruction stops the Machine (R106). Tied to `step` by `step_of_decode_error`. -/
def State.rejected (s : State) : Reject → State
  | .invalidOpcode w => s.takeFault ⟨.invalidOpcode, w⟩
  | .invalidMode w => s.takeFault ⟨.invalidMode, w⟩
  | .truncated => s.setRunState .stopped

theorem fetchDecode_of_decode_error {s : State} {e : Reject} (hv : s.ValidAddr s.pc)
    (hd : decode s.instrCells = .error e) : fetchDecode s = .ends (s.rejected e) := by
  obtain ⟨hlo, hhi⟩ := hv
  rw [fetchDecode, if_neg (by omega), if_neg (by omega), hd]
  cases e with
  | invalidOpcode | invalidMode | truncated => rfl

theorem step_of_decode_error {s : State} {e : Reject} (hs : Statement.Fetches s)
    (hd : decode s.instrCells = .error e) : step s = .next (s.rejected e) := by
  obtain ⟨hf, hr, hv⟩ := hs
  simp [step, frontEnd, hf, hr, fetchDecode_of_decode_error hv hd]

/-- The word at the pc decides an illegal instruction alone, although it may be truncated too. -/
theorem step_of_decodeWord_error {s : State} {e : Reject} (hs : Statement.Fetches s)
    (hd : decodeWord (s.cell s.pc.toNat) = .error e) : step s = .next (s.rejected e) := by
  have ⟨_, _, hv⟩ := hs
  obtain ⟨rest, hcells, -⟩ := instrCells_cons hv
  exact step_of_decode_error hs (hcells ▸ decode_cons_of_error rest hd)

/-- An instruction with a cell past the end of memory is truncated. -/
theorem decode_instrCells_of_past_end {s : State} {d : Decoded} (hv : s.ValidAddr s.pc)
    (hd : decodeWord (s.cell s.pc.toNat) = .ok d) (hlong : s.memLen < s.pc.toInt + d.kind.width) :
    decode s.instrCells = .error .truncated := by
  obtain ⟨rest, hcells, hlen⟩ := instrCells_cons hv
  have hshort : rest.length < d.kind.nparams := by
    have := d.kind.width_eq_nparams_succ
    have := hv.toNat_eq
    omega
  exact hcells ▸ decode_cons_of_short hd hshort

/-- HALT takes one cell, the one at the pc. -/
theorem ne_halt_of_past_end {s : State} {k : Kind} (hv : s.ValidAddr s.pc)
    (hlong : s.memLen < s.pc.toInt + k.width) : k ≠ .halt := by
  rintro rfl
  obtain ⟨-, hhi⟩ := hv
  simp only [Kind.width] at hlong
  omega

/-- Settles O15: missing cells make the decoder answer truncated, an illegal word is rejected before that, and
`State.rejected` is where a step ends for each answer. -/
theorem truncatedInstructionsStop : Obligations.TruncatedInstructionsStop := by
  intro s hs
  have ⟨hf, _, hv⟩ := hs
  refine ⟨fun k h hd hlong => ?_, fun w hw => step_of_decodeWord_error hs hw,
    fun w hw => step_of_decodeWord_error hs hw⟩
  have hstep : step s = .next (s.setRunState .stopped) :=
    step_of_decode_error hs (decode_instrCells_of_past_end hv hd hlong)
  have hreport : (s.setRunState .stopped).report = .status .stopped := State.report_of_no_fault hf
  exact ⟨hstep, hreport ▸ stepCommand_of_step hstep, ne_halt_of_past_end hv hlong⟩

end Sys2Proof.Machine

/-! ## Format F4: the operands, the faults in order, and the cell written (40_step_and_decode.md R110, R111) -/

namespace Sys2Proof.Machine

open Statement

/-- The words of any instruction are its header's word, of which the digits are known, and its operands. -/
theorem encodedAs_opcode_operands (i : Instr) : EncodedAs i i.kind.opcode i.operands := by
  refine ⟨headerWord i.kind i.header, rfl, fun hwf => ?_⟩
  rw [headerWord_toInt hwf, headerValue]
  push_cast
  rfl

theorem resolve_of_reads {s : State} {raw v : Word} {m : Mode} (h : Reads s raw m v) : resolve s raw m = .ok v := by
  obtain ⟨hpos, himm⟩ := h
  cases m with
  | position =>
    obtain ⟨hv, rfl⟩ := hpos rfl
    exact memRead_valid hv
  | immediate => rw [himm rfl, resolve_immediate]

theorem resolve_of_unreadable {s : State} {raw : Word} {m : Mode} (h : Unreadable s raw m) :
    resolve s raw m = .error ⟨.outOfBounds, raw⟩ := by
  obtain ⟨rfl, hv⟩ := h
  exact memRead_invalid hv

section
variable {f : Word → Word → Except Raised Word} {h : Header} {a b d x y r : Word} {s : State} {e : Raised}

theorem binaryToCell_of_unreadable_fst (ha : Unreadable s a h.m1) :
    binaryToCell f h a b d s = .error ⟨.outOfBounds, a⟩ := by
  rw [binaryToCell, resolve_of_unreadable ha]
  rfl

theorem binaryToCell_of_unreadable_snd (ha : Reads s a h.m1 x) (hb : Unreadable s b h.m2) :
    binaryToCell f h a b d s = .error ⟨.outOfBounds, b⟩ := by
  rw [binaryToCell, resolve_of_reads ha, resolve_of_unreadable hb]
  rfl

theorem binaryToCell_of_compute_error (ha : Reads s a h.m1 x) (hb : Reads s b h.m2 y) (hf : f x y = .error e) :
    binaryToCell f h a b d s = .error e := by
  simp only [binaryToCell, resolve_of_reads ha, resolve_of_reads hb, bind, Except.bind, hf]

theorem binaryToCell_of_invalid_dest (ha : Reads s a h.m1 x) (hb : Reads s b h.m2 y) (hf : f x y = .ok r)
    (hd : ¬s.ValidAddr d) : binaryToCell f h a b d s = .error ⟨.outOfBounds, d⟩ := by
  simp only [binaryToCell, resolve_of_reads ha, resolve_of_reads hb, bind, Except.bind, hf, memWrite_invalid r hd]

theorem binaryToCell_of_valid_dest (ha : Reads s a h.m1 x) (hb : Reads s b h.m2 y) (hf : f x y = .ok r)
    (hd : s.ValidAddr d) : binaryToCell f h a b d s = .ok ((s.storeCell d.toNat r).advance 4) := by
  simp only [binaryToCell, resolve_of_reads ha, resolve_of_reads hb, bind, Except.bind, hf, memWrite_valid r hd]

end

/-- The frame of format F4: one cell and the pc. -/
theorem wrote_storeCell_advance (s : State) (a : Nat) (v : Word) :
    Wrote s ((s.storeCell a v).advance 4) a v (s.pc + 4) s.runState where
  written := by simp
  others b hb := by simp [hb]
  memLen := rfl
  pc := rfl
  runState := rfl
  fault := rfl
  faultInfo := rfl
  ovf := rfl

/-- A write that keeps the run state keeps a running Machine's status `Ok`. -/
theorem reportsOk_of_wrote {s t : State} {a : Nat} {v pc : Word} (h : Wrote s t a v pc s.runState) :
    ReportsOk s t := by
  intro hf hr
  rw [State.report_of_no_fault (h.fault.trans hf), h.runState, hr]
  rfl

end Sys2Proof.Machine

/-! ## ADD and MUL (41_arithmetic.md R130 to R132) -/

namespace Sys2Proof.Machine

open Statement

theorem fit_fault_of_not_fits {v : Int} (w : Word) (hv : ¬fitsW v) :
    fit .fault w v = .error ⟨.arithmeticOverflow, w⟩ := if_neg hv

/-- Whenever `Fit` answers, its word is the residue: the value itself when that fits (`wrapW_toInt`). -/
theorem fit_ok_of_fits_or_wrap {ovf : Overflow} {v : Int} (w : Word) (h : fitsW v ∨ ovf = .wrap) :
    fit ovf w v = .ok (wrapW v) := by
  rcases h with hv | rfl
  · exact if_pos hv
  · exact ite_self _

/-- What ADD and MUL share: an instruction of format F4 whose computation is `op` with the range check of its own
word. The clauses are the outcomes of format F4 in the order of its checks. -/
theorem arithmetic_of_exec {mk : Header → Word → Word → Word → Instr} {k : Kind} {op : Int → Int → Int}
    (hencoded : ∀ h a b d, EncodedAs (mk h a b d) k.opcode [a, b, d])
    (hword : ∀ h a b d, (encode (mk h a b d)).head! = headerWord k h)
    (hexec : ∀ h a b d s, exec (mk h a b d) s =
      finish s (binaryToCell (fun x y => fit s.ovf (headerWord k h) (op x.toInt y.toInt)) h a b d s)) :
    Arithmetic mk k.opcode op := by
  intro h a b d s
  rw [hexec, hword]
  refine ⟨hencoded h a b d, ?operand1, ?operand2, ?overflow, ?destination, ?completes⟩
  case operand1 =>
    intro ha
    rw [binaryToCell_of_unreadable_fst ha]
    rfl
  case operand2 =>
    intro x ha hb
    rw [binaryToCell_of_unreadable_snd ha hb]
    rfl
  case overflow =>
    intro x y ha hb hv hovf
    rw [hovf, binaryToCell_of_compute_error ha hb (fit_fault_of_not_fits _ hv)]
    rfl
  case destination =>
    intro x y ha hb hv hd
    rw [binaryToCell_of_invalid_dest ha hb (fit_ok_of_fits_or_wrap _ hv) hd]
    rfl
  case completes =>
    intro x y ha hb hv hd
    have hwrote := wrote_storeCell_advance s d.toNat (wrapW (op x.toInt y.toInt))
    rw [binaryToCell_of_valid_dest ha hb (fit_ok_of_fits_or_wrap _ hv) hd]
    exact ⟨_, _, rfl, hwrote, reportsOk_of_wrote hwrote, wrapW_toInt, wrapW_congr _⟩

/-- Settles O18: ADD is format F4 with the range-checked sum. -/
theorem addStoresTheSumOrFaultsInOrder : Obligations.AddStoresTheSumOrFaultsInOrder :=
  arithmetic_of_exec (k := .add) (fun h a b d => encodedAs_opcode_operands (.add h a b d)) (fun _ _ _ _ => rfl)
    (fun _ _ _ _ _ => rfl)

/-- Settles O19: MUL is format F4 with the range-checked product. -/
theorem mulStoresTheProductOrFaultsInOrder : Obligations.MulStoresTheProductOrFaultsInOrder :=
  arithmetic_of_exec (k := .mul) (fun h a b d => encodedAs_opcode_operands (.mul h a b d)) (fun _ _ _ _ => rfl)
    (fun _ _ _ _ _ => rfl)

end Sys2Proof.Machine

/-! ## IN and OUT, step phase (42_io.md R141, R142) -/

namespace Sys2Proof.Machine

open Statement

/-- A legal instruction with a cell past the end of memory stops the Machine (R106). -/
theorem step_of_past_end {s : State} {d : Decoded} (hs : Fetches s) (hd : decodeWord (s.cell s.pc.toNat) = .ok d)
    (hlong : s.memLen < s.pc.toInt + d.kind.width) : step s = .next (s.setRunState .stopped) := by
  have ⟨_, _, hv⟩ := hs
  exact step_of_decode_error hs (decode_instrCells_of_past_end hv hd hlong)

/-- What IN and OUT share: an instruction of two cells that sets the run state and does nothing else. -/
theorem announces_of_exec {mk : Header → Word → Instr} {k : Kind} {r : RunState} (hwidth : k.width = 2)
    (hencoded : ∀ h a, EncodedAs (mk h a) k.opcode [a])
    (hexec : ∀ h a s, exec (mk h a) s = .next (s.setRunState r)) : Announces mk k.opcode k r r.status := by
  intro h a s
  refine ⟨hencoded h a, hexec h a s, fun hf => State.report_of_no_fault hf, fun hs hd hshort => ?_⟩
  have hlong : (s.memLen : Int) < s.pc.toInt + k.width := hwidth ▸ hshort
  exact step_of_past_end hs hd hlong

/-- Settles O24: IN announces that it awaits input. -/
theorem inAnnouncesAndHolds : Obligations.InAnnouncesAndHolds :=
  announces_of_exec (k := .inp) rfl (fun h a => encodedAs_opcode_operands (.inp h a)) (fun _ _ _ => rfl)

/-- Settles O25: OUT announces that it awaits taking its output. -/
theorem outAnnouncesAndHolds : Obligations.OutAnnouncesAndHolds :=
  announces_of_exec (k := .out) rfl (fun h a => encodedAs_opcode_operands (.out h a)) (fun _ _ _ => rfl)

end Sys2Proof.Machine

/-! ## The gates and the pending instruction of a completion (42_io.md R144, 46_host_interface.md R201) -/

namespace Sys2Proof.Machine

section
variable {own : RunState} {code : Word} {body : Except Raised (State × Response)} {s : State}

/-- The fault gate of supply_input and take_output. -/
theorem completion_of_fault {c : Cause} (hf : s.fault = some c) :
    completion own code body s = (s, .fault c s.faultInfo) := by
  simp [completion, hf]

/-- Past both gates the completion does its own work. -/
theorem completion_of_runState_eq (hf : s.fault = none) (hr : s.runState = own) :
    completion own code body s = finishCommand s body := by
  simp [completion, hf, hr]

end

/-- Both cells of a pending IN or OUT are valid, and its operand's cell is the one after the opcode cell. -/
theorem State.Pends.cells {s : State} {k : Kind} (hm : s.MemoryOk) (hp : s.Pends k) :
    s.ValidAddr s.pc ∧ s.ValidAddr (s.pc + 1) ∧ (s.pc + 1).toNat = s.pc.toNat + 1 := by
  obtain ⟨-, hlen, -, -⟩ := hm
  obtain ⟨hpc, hfits, -⟩ := hp
  have hlen : s.memLen ≤ 2147483647 := hlen
  have hnat := toNat_of_nonneg hpc
  have hnext : (s.pc + 1).toNat = s.pc.toNat + 1 := by
    have hone : (1 : Word).toNat = 1 := rfl
    rw [BitVec.toNat_add, hone]
    omega
  have hint : (s.pc + 1).toInt = s.pc.toInt + 1 := by
    rw [BitVec.toInt_eq_toNat_of_lt (by omega)]
    omega
  exact ⟨⟨hpc, by omega⟩, ⟨by omega, by omega⟩, hnext⟩

/-- The pending instruction read again at the held pc: its mode slot 1 and the word after its opcode. -/
theorem pending_of_pends {s : State} {k : Kind} {d : Decoded} (hm : s.MemoryOk) (hp : s.Pends k)
    (hd : decodeWord (s.cell s.pc.toNat) = .ok d) :
    pending s = .ok (d.header.m1, s.cell (s.pc.toNat + 1)) := by
  obtain ⟨hop, harg, hnext⟩ := hp.cells hm
  obtain ⟨-, hdigit, -⟩ := decodeWord_ok hd
  have hmode : Mode.ofDigit (digit (s.cell s.pc.toNat).toInt 2) = some d.header.m1 := by
    rw [hdigit, Mode.ofDigit_digit]
  rw [pending_eq hop harg hmode, hnext]

end Sys2Proof.Machine

/-! ## supply_input (42_io.md R143, R145) -/

namespace Sys2Proof.Machine

open Statement

section
variable {s : State} {m1 : Mode} {raw1 v : Word}

theorem supplyInput_of_awaitingInput (hf : s.fault = none) (hr : s.runState = .awaitingInput) :
    supplyInput v s = finishCommand s ((completeIn v s).map fun t => (t, .done)) :=
  completion_of_runState_eq hf hr

theorem completeIn_of_invalid_dest (hp : pending s = .ok (m1, raw1)) (hd : ¬s.ValidAddr (inputDest s.pc raw1 m1)) :
    completeIn v s = .error ⟨.outOfBounds, inputDest s.pc raw1 m1⟩ := by
  simp only [completeIn, hp, bind, Except.bind, memWrite_invalid v hd]

theorem completeIn_of_valid_dest (hp : pending s = .ok (m1, raw1)) (hd : s.ValidAddr (inputDest s.pc raw1 m1)) :
    completeIn v s = .ok (((s.storeCell (inputDest s.pc raw1 m1).toNat v).advance 2).setRunState .running) := by
  simp only [completeIn, hp, bind, Except.bind, memWrite_valid v hd]

theorem supplyInput_of_invalid_dest (hf : s.fault = none) (hr : s.runState = .awaitingInput)
    (hp : pending s = .ok (m1, raw1)) (hd : ¬s.ValidAddr (inputDest s.pc raw1 m1)) :
    supplyInput v s = (faulted s .outOfBounds (inputDest s.pc raw1 m1),
      .fault .outOfBounds (inputDest s.pc raw1 m1)) := by
  rw [supplyInput_of_awaitingInput hf hr, completeIn_of_invalid_dest hp hd]
  rfl

/-- The frame of IN's completion: one cell, the pc and the run state. -/
theorem wrote_storeCell_advance_setRunState (s : State) (a : Nat) (v : Word) (r : RunState) :
    Wrote s (((s.storeCell a v).advance 2).setRunState r) a v (s.pc + 2) r where
  written := by simp
  others b hb := by simp [hb]
  memLen := rfl
  pc := rfl
  runState := rfl
  fault := rfl
  faultInfo := rfl
  ovf := rfl

theorem supplyInput_of_valid_dest (hf : s.fault = none) (hr : s.runState = .awaitingInput)
    (hp : pending s = .ok (m1, raw1)) (hd : s.ValidAddr (inputDest s.pc raw1 m1)) :
    ∃ t, supplyInput v s = (t, .done) ∧
      Wrote s t (inputDest s.pc raw1 m1).toNat v (s.pc + 2) .running := by
  rw [supplyInput_of_awaitingInput hf hr, completeIn_of_valid_dest hp hd]
  exact ⟨_, rfl, wrote_storeCell_advance_setRunState s _ v .running⟩

end

/-- Settles O42: the two gates, then the completion, whose destination `inputDest` gives by the mode. An Immediate
destination is the pending instruction's own second cell, which the invariant keeps in memory. -/
theorem supplyInputCompletesIn : Obligations.SupplyInputCompletesIn := by
  intro v s
  refine ⟨fun c hf => completion_of_fault hf, fun hf hr => supplyInput_of_not_awaitingInput v hf hr, ?_⟩
  intro h hf hr hinv hd
  have hpending := pending_of_pends hinv.memory (hinv.input hr) hd
  refine ⟨fun hmode hraw => ?_, fun hmode hraw => ?_, fun hmode => ?_⟩ <;> rw [hmode] at hpending
  · exact supplyInput_of_invalid_dest hf hr hpending hraw
  · exact supplyInput_of_valid_dest hf hr hpending hraw
  · obtain ⟨-, hown, hnext⟩ := (hinv.input hr).cells hinv.memory
    exact hnext ▸ supplyInput_of_valid_dest hf hr hpending hown

end Sys2Proof.Machine

/-! ## take_output (42_io.md R146) -/

namespace Sys2Proof.Machine

open Statement

section
variable {s : State} {m1 : Mode} {raw1 x : Word}

theorem takeOutput_of_awaitingOutput (hf : s.fault = none) (hr : s.runState = .awaitingOutput) :
    takeOutput s = finishCommand s ((completeOut s).map fun p => (p.1, .value p.2)) :=
  completion_of_runState_eq hf hr

theorem completeOut_of_unreadable (hp : pending s = .ok (m1, raw1)) (hraw : Unreadable s raw1 m1) :
    completeOut s = .error ⟨.outOfBounds, raw1⟩ := by
  simp only [completeOut, hp, bind, Except.bind, resolve_of_unreadable hraw]

theorem completeOut_of_reads (hp : pending s = .ok (m1, raw1)) (hraw : Reads s raw1 m1 x) :
    completeOut s = .ok ((s.advance 2).setRunState .running, x) := by
  simp only [completeOut, hp, bind, Except.bind, resolve_of_reads hraw]

end

/-- Settles O43: the two gates, then the completion, which resolves the pending operand. -/
theorem takeOutputCompletesOut : Obligations.TakeOutputCompletesOut := by
  intro s
  refine ⟨fun c hf => completion_of_fault hf, fun hf hr => takeOutput_of_not_awaitingOutput hf hr, ?_⟩
  intro h hf hr hinv hd
  have hpending := pending_of_pends hinv.memory (hinv.output hr) hd
  rw [takeOutput_of_awaitingOutput hf hr]
  refine ⟨fun hraw => ?_, fun x hraw => ?_⟩
  · rw [completeOut_of_unreadable hpending hraw]
    rfl
  · rw [completeOut_of_reads hpending hraw]
    rfl

end Sys2Proof.Machine

/-! ## JT and JF (43_jumps.md R160 to R163) -/

namespace Sys2Proof.Machine

open Statement

section
variable {test : Word → Bool} {h : Header} {c p x y : Word} {s : State}

theorem jumpWhen_of_unreadable_condition (hc : Unreadable s c h.m1) :
    jumpWhen test h c p s = .error ⟨.outOfBounds, c⟩ := by
  rw [jumpWhen, resolve_of_unreadable hc]
  rfl

/-- The target is resolved before the condition is tested (R160). -/
theorem jumpWhen_of_unreadable_target (hc : Reads s c h.m1 x) (hp : Unreadable s p h.m2) :
    jumpWhen test h c p s = .error ⟨.outOfBounds, p⟩ := by
  rw [jumpWhen, resolve_of_reads hc, resolve_of_unreadable hp]
  rfl

theorem jumpWhen_of_reads (hc : Reads s c h.m1 x) (hp : Reads s p h.m2 y) :
    jumpWhen test h c p s = .ok (if test x then s.setPc y else s.advance 3) := by
  rw [jumpWhen, resolve_of_reads hc, resolve_of_reads hp]
  rfl

end

/-- A jump keeps the run state and the fault registers, so a running Machine still reports `Ok`. -/
theorem reportsOk_setPc (s : State) (target : Word) : ReportsOk s (s.setPc target) := by
  intro hf hr
  rw [State.report_of_no_fault (s := s.setPc target) hf, State.setPc_runState, hr]
  rfl

/-- What JT and JF share: a conditional jump whose test is `taken`. The clauses are the outcomes of `jumpWhen` in the
order of its checks. -/
theorem jump_of_exec {mk : Header → Word → Word → Instr} {k : Kind} {test : Word → Bool} {taken : Word → Prop}
    (hencoded : ∀ h c p, EncodedAs (mk h c p) k.opcode [c, p])
    (htest : ∀ x, test x = true ↔ taken x)
    (hexec : ∀ h c p s, exec (mk h c p) s = finish s (jumpWhen test h c p s)) :
    Jump mk k.opcode taken := by
  intro h c p s
  rw [hexec]
  refine ⟨hencoded h c p, ?condition, ?target, ?jumps, ?falls⟩
  case condition =>
    intro hc
    rw [jumpWhen_of_unreadable_condition hc]
    rfl
  case target =>
    intro x hc hp
    rw [jumpWhen_of_unreadable_target hc hp]
    rfl
  case jumps =>
    intro x y hc hp hx
    rw [jumpWhen_of_reads hc hp, if_pos ((htest x).2 hx)]
    exact ⟨rfl, reportsOk_setPc s y⟩
  case falls =>
    intro x y hc hp hx
    rw [jumpWhen_of_reads hc hp, if_neg (mt (htest x).1 hx)]
    exact ⟨rfl, reportsOk_setPc s (s.pc + 3)⟩

/-- The model tests the word, the rules its signed reading. -/
theorem word_eq_zero_iff_toInt (x : Word) : x = 0 ↔ x.toInt = 0 :=
  BitVec.toInt_inj.symm

/-- Settles O22: JT is the conditional jump whose test is that the condition is not zero. -/
theorem jtJumpsOnNonzero : Obligations.JtJumpsOnNonzero :=
  jump_of_exec (k := .jt) (fun h c p => encodedAs_opcode_operands (.jt h c p))
    (fun x => decide_eq_true_iff.trans (word_eq_zero_iff_toInt x).not) (fun _ _ _ _ => rfl)

/-- Settles O23: JF is the conditional jump whose test is that the condition is zero. -/
theorem jfJumpsOnZero : Obligations.JfJumpsOnZero :=
  jump_of_exec (k := .jf) (fun h c p => encodedAs_opcode_operands (.jf h c p))
    (fun x => decide_eq_true_iff.trans (word_eq_zero_iff_toInt x)) (fun _ _ _ _ => rfl)

end Sys2Proof.Machine

/-! ## LT and EQ (44_compare.md R170, R171) -/

namespace Sys2Proof.Machine

open Statement

@[simp] theorem boolWord_true : boolWord true = 1 := rfl
@[simp] theorem boolWord_false : boolWord false = 0 := rfl

/-- What LT and EQ share: an instruction of format F4 whose computation is a test of the signed operands, which never
faults. The clauses are the outcomes of format F4 in the order of its checks. -/
theorem comparison_of_exec {mk : Header → Word → Word → Word → Instr} {k : Kind} {holds : Int → Int → Prop}
    [DecidableRel holds] (hencoded : ∀ h a b d, EncodedAs (mk h a b d) k.opcode [a, b, d])
    (hexec : ∀ h a b d s, exec (mk h a b d) s =
      finish s (binaryToCell (fun x y => .ok (boolWord (decide (holds x.toInt y.toInt)))) h a b d s)) :
    Comparison mk k.opcode holds := by
  intro h a b d s
  rw [hexec]
  refine ⟨hencoded h a b d, ?operand1, ?operand2, ?destination, ?completes⟩
  case operand1 =>
    intro ha
    rw [binaryToCell_of_unreadable_fst ha]
    rfl
  case operand2 =>
    intro x ha hb
    rw [binaryToCell_of_unreadable_snd ha hb]
    rfl
  case destination =>
    intro x y ha hb hd
    rw [binaryToCell_of_invalid_dest ha hb rfl hd]
    rfl
  case completes =>
    intro x y ha hb hd
    have hwrote := wrote_storeCell_advance s d.toNat (boolWord (decide (holds x.toInt y.toInt)))
    rw [binaryToCell_of_valid_dest ha hb rfl hd]
    refine ⟨_, _, rfl, hwrote, reportsOk_of_wrote hwrote, fun hxy => ?_, fun hxy => ?_⟩
    · rw [decide_eq_true hxy, boolWord_true]
    · rw [decide_eq_false hxy, boolWord_false]

/-- Settles O20: LT is format F4 with the test `<` of the signed operands. -/
theorem ltStoresTheSignedComparison : Obligations.LtStoresTheSignedComparison :=
  comparison_of_exec (k := .lt) (fun h a b d => encodedAs_opcode_operands (.lt h a b d)) (fun _ _ _ _ _ => rfl)

/-- Settles O21: EQ is format F4 with the test `=` of the signed operands. -/
theorem eqStoresTheEquality : Obligations.EqStoresTheEquality :=
  comparison_of_exec (k := .eq) (fun h a b d => encodedAs_opcode_operands (.eq h a b d)) (fun _ _ _ _ _ => rfl)

end Sys2Proof.Machine

/-! ## HALT (45_stop.md R180) -/

namespace Sys2Proof.Machine

open Statement

theorem encodedAs_halt (h : Header) : EncodedAs (.halt h) 99 [] :=
  encodedAs_opcode_operands (.halt h)

theorem exec_halt (h : Header) (s : State) : exec (.halt h) s = .next (s.setRunState .stopped) := rfl

/-- Settles O26: HALT leads to a Stopped Machine, whose step and run change nothing by their gates. The word 299 has the
illegal mode digit 2 in slot 1. -/
theorem haltStops : Obligations.HaltStops := by
  refine ⟨fun h s => ⟨encodedAs_halt h, exec_halt h s, fun hf => ⟨?report, ?step, fun fuel => ?run⟩⟩, ?mode⟩
  case report => exact State.report_of_no_fault (s := s.setRunState .stopped) hf
  case step => exact step_of_stopped hf rfl
  case run => exact run_of_not_running fuel hf nofun
  case mode => decide

end Sys2Proof.Machine

/-! ## is_running (46_host_interface.md R207) -/

namespace Sys2Proof.Machine

@[simp] theorem isRunning_eq_true_iff (s : State) : isRunning s = true ↔ s.runState ≠ .stopped :=
  decide_eq_true_iff

/-- Settles O54: the command answers `isRunning` of the state it was given, with no gate before it. -/
theorem isRunningMeansNotStopped : Obligations.IsRunningMeansNotStopped :=
  fun fuel s => ⟨isRunning s, perform_isRunning fuel s, isRunning_eq_true_iff s⟩

end Sys2Proof.Machine

/-! ## Decoding and encoding are inverse (30_encoding.md section 6) -/

namespace Sys2Proof

/-- Settles O1: the first word decodes to the kind and header it was made of, and the words after it assemble. -/
theorem decodeOfEncodeIsTheInstruction : Obligations.DecodeOfEncodeIsTheInstruction := by
  intro i rest hwf
  simp [encode, decode, decodeWord_headerWord hwf, assemble_operands]

/-- A word worth the value of a header is that header's word, and the ignored digits fit. -/
theorem eq_headerWord_of_toInt {w : Word} {k : Kind} {h : Header} (hw : w.toInt = headerValue k h) :
    h.upper ≤ Config.maxUpper ∧ w = headerWord k h := by
  have hfits : h.upper ≤ 21474 := by
    have hlt : w.toInt < 2147483648 := w.toInt_lt
    unfold headerValue at hw
    omega
  exact ⟨hfits, BitVec.eq_of_toInt_eq (hw.trans (headerWord_toInt hfits).symm)⟩

/-- A word that decodes is worth the value of the header it decodes to: its digits are the header's fields. -/
theorem toInt_of_decodeWord_ok {w : Word} {d : Decoded} (h : decodeWord w = .ok d) :
    w.toInt = headerValue d.kind d.header := by
  obtain ⟨hop, hm1, hm2, hm3, hupper⟩ := decodeWord_ok h
  have hnat := toNat_of_nonneg (decodeWord_ok_nonneg h)
  rw [← hnat] at hop hm1 hm2 hm3 hupper ⊢
  rw [digit_ofNat] at hm1 hm2 hm3
  have hop' := (truncRem_ofNat w.toNat 100).symm.trans hop
  have hupper' := hupper.trans (congrArg Int.toNat (truncDiv_ofNat w.toNat 100000))
  exact congrArg Nat.cast (headerValue_of_digits (Int.ofNat.inj hop') (Int.ofNat.inj hm1) (Int.ofNat.inj hm2)
    (Int.ofNat.inj hm3) hupper'.symm)

/-- The word that decodes is the header's own word. -/
theorem eq_headerWord_of_decodeWord_ok {w : Word} {d : Decoded} (h : decodeWord w = .ok d) :
    d.header.upper ≤ Config.maxUpper ∧ w = headerWord d.kind d.header :=
  eq_headerWord_of_toInt (toInt_of_decodeWord_ok h)

/-- Settles O2: the first word is its header's word, the words after it begin with the operands. -/
theorem decodedWordsAreTheEncoding : Obligations.DecodedWordsAreTheEncoding := by
  intro ws i h
  obtain ⟨w, rest, rfl, hw⟩ := decode_ok h
  obtain ⟨hwf, rfl⟩ := eq_headerWord_of_decodeWord_ok hw
  exact ⟨hwf, rest, rfl⟩

/-- Settles O6: adding to the ignored digits gives the word of the header with those digits added. -/
theorem highDigitsAreIgnored : Obligations.HighDigitsAreIgnored := by
  intro w v q k h hw hv
  have hvalue : v.toInt = headerValue k { h with upper := h.upper + q } := by
    rw [hv, toInt_of_decodeWord_ok hw]
    push_cast [headerValue]
    ring
  obtain ⟨hfits, rfl⟩ := eq_headerWord_of_toInt hvalue
  exact ⟨_, decodeWord_headerWord hfits, rfl, rfl, rfl⟩

end Sys2Proof

/-! ## Which words are rejected, and how (30_encoding.md R68, R70, R71, R74) -/

namespace Sys2Proof

theorem Kind.ofOpcode_eq_none_iff (op : Int) :
    Kind.ofOpcode op = none ↔ op ∉ ([1, 2, 3, 4, 5, 6, 7, 8, 99] : List Int) := by
  constructor
  · intro h hmem
    simp only [List.mem_cons, List.not_mem_nil, or_false] at hmem
    rcases hmem with rfl | rfl | rfl | rfl | rfl | rfl | rfl | rfl | rfl <;> cases h
  · intro h
    cases hk : Kind.ofOpcode op with
    | none => rfl
    | some k =>
      refine absurd ?_ h
      rw [Kind.ofOpcode_some hk]
      cases k <;> decide

theorem Mode.ofDigit_eq_none_iff (n : Int) : Mode.ofDigit n = none ↔ ¬(n = 0 ∨ n = 1) := by
  unfold Mode.ofDigit
  split
  · simp [*]
  · split <;> simp [*]

theorem decodeWord_eq_invalidOpcode_iff (w : Word) :
    decodeWord w = .error (.invalidOpcode w) ↔ Kind.ofOpcode (truncRem w.toInt 100) = none := by
  cases hk : Kind.ofOpcode (truncRem w.toInt 100) with
  | none => simp [decodeWord, hk]
  | some k =>
    simp only [decodeWord, hk]
    split <;> simp

/-- Past the opcode, one illegal mode digit decides. -/
theorem decodeWord_eq_invalidMode_iff (w : Word) :
    decodeWord w = .error (.invalidMode w) ↔ Kind.ofOpcode (truncRem w.toInt 100) ≠ none ∧
      (Mode.ofDigit (digit w.toInt 2) = none ∨ Mode.ofDigit (digit w.toInt 3) = none ∨
        Mode.ofDigit (digit w.toInt 4) = none) := by
  cases hk : Kind.ofOpcode (truncRem w.toInt 100) with
  | none => simp [decodeWord, hk]
  | some k =>
    simp only [decodeWord, hk]
    split
    · simp [*]
    · rename_i hillegal
      simp only [ne_eq, reduceCtorEq, not_false_eq_true, true_and, true_iff]
      by_contra hlegal
      simp only [not_or, ← ne_eq, Option.ne_none_iff_exists'] at hlegal
      obtain ⟨⟨m1, h1⟩, ⟨m2, h2⟩, ⟨m3, h3⟩⟩ := hlegal
      exact hillegal m1 m2 m3 h1 h2 h3

/-- Settles O4: the opcode's and the modes' tables, and the digits of a word that decodes. -/
theorem decodeChecksOpcodeThenModes : Obligations.DecodeChecksOpcodeThenModes := by
  intro w
  refine ⟨(decodeWord_eq_invalidOpcode_iff w).trans (Kind.ofOpcode_eq_none_iff _), ?_, fun k h hw => ?_⟩
  · rw [decodeWord_eq_invalidMode_iff, ne_eq, Kind.ofOpcode_eq_none_iff, not_not]
    simp only [Mode.ofDigit_eq_none_iff, not_and_or]
    rfl
  · obtain ⟨hop, hm1, hm2, hm3, -⟩ := decodeWord_ok hw
    exact ⟨hop, hm1, hm2, hm3⟩

/-- Settles O5: the remainder of a negative word is not positive, and no opcode is. -/
theorem negativeWordsAreIllegalOpcodes : Obligations.NegativeWordsAreIllegalOpcodes :=
  fun w hw => (decodeWord_eq_invalidOpcode_iff w).2 (Kind.ofOpcode_nonpos (truncRem_neg 100 hw))

/-- Settles O7: the table, row by row. -/
theorem opcodesWidthsAndParameterCounts : Obligations.OpcodesWidthsAndParameterCounts := rfl

/-- Settles O8: each word is decoded digit by digit. -/
theorem sampleWordsDecode : Obligations.SampleWordsDecode :=
  ⟨rfl, rfl, rfl, rfl, rfl, rfl, rfl, rfl, rfl, rfl, rfl, rfl, rfl⟩

end Sys2Proof

/-! ## Every step answers (40_step_and_decode.md R100, 60_exceptions.md R225) -/

namespace Sys2Proof.Machine

/-- Settles O16: the stages before the dispatch end in a state, and every instruction answers. -/
theorem everyStepAnswersANextState : Obligations.EveryStepAnswersANextState := by
  intro s
  unfold step
  split
  · exact ⟨_, rfl⟩
  · exact exec_answers _ s

/-- The host's step always has a result: a next state and its report. -/
theorem stepCommand_answers (s : State) : ∃ t, step s = .next t ∧ stepCommand s = some (t, t.report) := by
  obtain ⟨t, ht⟩ := everyStepAnswersANextState s
  exact ⟨t, ht, stepCommand_of_step ht⟩

theorem State.report_of_fault {s : State} {c : Cause} (hf : s.fault = some c) : s.report = .fault c s.faultInfo := by
  rw [State.report, hf]

/-- `Ok` is the report of a Machine that runs without a fault. -/
theorem State.report_eq_ok_iff (s : State) : s.report = .status .ok ↔ s.fault = none ∧ s.runState = .running := by
  cases hf : s.fault with
  | some c => simp [State.report_of_fault hf]
  | none =>
    rw [State.report_of_no_fault hf]
    cases s.runState <;> simp [RunState.status]

end Sys2Proof.Machine

/-! ## run (46_host_interface.md R205, 70_reset_and_hazards.md R258) -/

namespace Sys2Proof.Machine

open Statement

/-! ### The loop -/

section
variable {fuel n k : Nat} {s t u : State} {r : Response} {p : State × Response}

theorem runLoop_succ_of_ok (h : stepCommand s = some (u, .status .ok)) :
    runLoop (fuel + 1) n s = runLoop fuel (n + 1) u := by
  simp only [runLoop, h]

theorem runLoop_succ_of_not_ok (h : stepCommand s = some (t, r)) (hr : r ≠ .status .ok) :
    runLoop (fuel + 1) n s = some (t, runReport n r) := by
  cases r with
  | status st => cases st <;> simp_all [runLoop, runReport]
  | fault | done | value | count | flag | outOfBounds | machine | constructionError => simp [runLoop, h, runReport]

/-- A loop that returns went through steps that report `Ok` and one that does not. -/
theorem okSteps_of_runLoop (h : runLoop fuel k s = some (t, r)) :
    ∃ n u r', OkSteps n s u ∧ stepCommand u = some (t, r') ∧ r' ≠ .status .ok ∧ r = runReport (k + n) r' := by
  induction fuel generalizing k s with
  | zero => cases h
  | succ fuel ih =>
    obtain ⟨u, -, hu⟩ := stepCommand_answers s
    by_cases hok : u.report = .status .ok
    · rw [hok] at hu
      rw [runLoop_succ_of_ok hu] at h
      obtain ⟨n, v, r', hsteps, hlast, hr', rfl⟩ := ih h
      exact ⟨n + 1, v, r', ⟨u, hu, hsteps⟩, hlast, hr', by rw [Nat.add_right_comm, Nat.add_assoc]⟩
    · rw [runLoop_succ_of_not_ok hu hok] at h
      cases h
      exact ⟨0, s, t.report, rfl, hu, hok, by rw [Nat.add_zero]⟩

/-- Such steps give the loop its result, under a bound of as many steps. -/
theorem runLoop_of_okSteps (h : OkSteps n s u) (hlast : stepCommand u = some (t, r)) (hr : r ≠ .status .ok) :
    runLoop (n + 1) k s = some (t, runReport (k + n) r) := by
  induction n generalizing k s with
  | zero =>
    obtain rfl : s = u := h
    exact runLoop_succ_of_not_ok hlast hr
  | succ n ih =>
    obtain ⟨v, hv, hsteps⟩ := h
    rw [runLoop_succ_of_ok hv, ih hsteps, Nat.add_right_comm, Nat.add_assoc]

/-- A larger bound does not change a result. -/
theorem runLoop_le (h : runLoop fuel k s = some p) (hle : fuel ≤ n) : runLoop n k s = some p := by
  induction fuel generalizing n k s with
  | zero => cases h
  | succ fuel ih =>
    obtain ⟨n, rfl⟩ : ∃ m, n = m + 1 := ⟨n - 1, by omega⟩
    obtain ⟨u, -, hu⟩ := stepCommand_answers s
    by_cases hok : u.report = .status .ok
    · rw [hok] at hu
      rw [runLoop_succ_of_ok hu] at h ⊢
      exact ih h (Nat.le_of_succ_le_succ hle)
    · rw [runLoop_succ_of_not_ok hu hok] at h ⊢
      exact h

/-! ### The command -/

theorem run_of_fault {c : Cause} (hf : s.fault = some c) : run fuel s = some (s, .fault c s.faultInfo) := by
  rw [run, hf]

theorem run_of_running (hf : s.fault = none) (hr : s.runState = .running) : run fuel s = runLoop fuel 0 s := by
  simp [run, hf, hr]

theorem run_le (h : run fuel s = some p) (hle : fuel ≤ n) : run n s = some p := by
  cases hf : s.fault with
  | some c => rwa [run_of_fault hf] at h ⊢
  | none =>
    by_cases hr : s.runState = .running
    · rw [run_of_running hf hr] at h ⊢
      exact runLoop_le h hle
    · rwa [run_of_not_running _ hf hr] at h ⊢

/-- The result of a run of a Machine that runs, read off its steps. -/
theorem okSteps_of_run (hf : s.fault = none) (hr : s.runState = .running) (h : run fuel s = some (t, r)) :
    ∃ n u r', OkSteps n s u ∧ stepCommand u = some (t, r') ∧ r' ≠ .status .ok ∧ r = runReport n r' := by
  rw [run_of_running hf hr] at h
  simpa only [Nat.zero_add] using okSteps_of_runLoop h

end

/-- Settles O50: the gates of run, and the loop in both directions. -/
theorem runCountsItsOkSteps : Obligations.RunCountsItsOkSteps := by
  intro s t r
  refine ⟨fun f hf => ?_, fun hf hr => ?_, fun hf hr => ⟨fun ⟨fuel, h⟩ => okSteps_of_run hf hr h, ?_⟩⟩
  · simp [RunsTo, run_of_fault hf, eq_comm]
  · simp [RunsTo, run_of_not_running _ hf hr, eq_comm]
  · rintro ⟨n, u, r', hsteps, hlast, hr', rfl⟩
    refine ⟨n + 1, ?_⟩
    rw [run_of_running hf hr, runLoop_of_okSteps hsteps hlast hr', Nat.zero_add]

/-- Settles O51: both results stand under the larger of the two bounds. -/
theorem runResultIsUnique : Obligations.RunResultIsUnique := by
  rintro s t t' r r' ⟨fuel, h⟩ ⟨fuel', h'⟩
  have heq := (run_le h (le_max_left fuel fuel')).symm.trans (run_le h' (le_max_right fuel fuel'))
  exact Prod.mk.inj (Option.some.inj heq)

end Sys2Proof.Machine

/-! ## The invariant (46_host_interface.md R201) -/

namespace Sys2Proof.Machine

/-! ### What the updates keep -/

theorem State.MemoryOk.of_eq {s t : State} (h : s.MemoryOk) (hmem : t.mem = s.mem) (hlen : t.memLen = s.memLen) :
    t.MemoryOk where
  len_pos := hlen ▸ h.len_pos
  len_le := hlen ▸ h.len_le
  wf := hmem ▸ h.wf
  inside := hmem ▸ hlen ▸ h.inside

theorem State.Pends.of_eq {s t : State} {k : Kind} (h : s.Pends k) (hmem : t.mem = s.mem) (hlen : t.memLen = s.memLen)
    (hpc : t.pc = s.pc) : t.Pends k where
  pc_nonneg := hpc ▸ h.pc_nonneg
  fits := hpc ▸ hlen ▸ h.fits
  decodes := by rw [State.cell, hmem, hpc]; exact h.decodes

/-- A write to a valid address lists no cell outside memory. -/
theorem State.MemoryOk.storeCell {s : State} {a : Word} (h : s.MemoryOk) (ha : s.ValidAddr a) (v : Word) :
    (s.storeCell a.toNat v).MemoryOk where
  len_pos := h.len_pos
  len_le := h.len_le
  wf := Memory.store_wf _ _ h.wf
  inside c hc := by
    rcases Memory.mem_store hc with hca | hold
    · exact hca ▸ ha.toNat_lt
    · exact h.inside c hold

/-- A Machine that does not await meets the invariant once its memory and `fault_info` do. -/
theorem State.Inv.of_not_awaiting {s : State} (hm : s.MemoryOk) (hi : s.fault = none → s.faultInfo = 0)
    (hin : s.runState ≠ .awaitingInput) (hout : s.runState ≠ .awaitingOutput) : s.Inv :=
  ⟨hm, hi, fun h => absurd h hin, fun h => absurd h hout⟩

/-- A fault holds memory, pc and run state, so what is pending stays pending. -/
theorem State.Inv.takeFault {s : State} (h : s.Inv) (e : Raised) : (s.takeFault e).Inv where
  memory := h.memory.of_eq rfl rfl
  no_info := nofun
  input hr := (h.input hr).of_eq rfl rfl rfl
  output hr := (h.output hr).of_eq rfl rfl rfl

theorem State.Inv.setRunState_stopped {s : State} (h : s.Inv) : (s.setRunState .stopped).Inv :=
  .of_not_awaiting (h.memory.of_eq rfl rfl) h.no_info nofun nofun

/-- A running Machine keeps the invariant at any pc. -/
theorem State.Inv.setPc {s : State} (h : s.Inv) (hr : s.runState = .running) (t : Word) : (s.setPc t).Inv :=
  .of_not_awaiting (h.memory.of_eq rfl rfl) h.no_info (by simp [hr]) (by simp [hr])

/-- An instruction of two cells that was decoded at the pc pends there. -/
theorem pends_of_decoded {s : State} {i : Instr} (hv : s.ValidAddr s.pc) (hd : decode s.instrCells = .ok i)
    (hwidth : i.kind.width = 2) : s.Pends i.kind := by
  obtain ⟨hfits, hword⟩ := decoded_fits hv hd
  rw [Instr.width, hwidth] at hfits
  exact ⟨hv.1, hfits, i.header, hword⟩

/-! ### Steps -/

/-- An instruction that was decoded at the pc of a running Machine keeps the invariant: IN and OUT leave themselves
pending, the others do not await. -/
theorem State.Inv.exec {s t : State} {i : Instr} (h : s.Inv) (hr : s.runState = .running) (hv : s.ValidAddr s.pc)
    (hd : decode s.instrCells = .ok i) (ht : exec i s = .next t) : t.Inv := by
  have hm := h.memory
  rcases exec_cases ht with ⟨e, rfl, -⟩ | ⟨-, d, r, -, hdest, rfl⟩ | ⟨-, y, p, -, -, rfl | rfl⟩ | ⟨hk, rfl⟩ |
    ⟨hk, rfl⟩ | ⟨-, rfl⟩
  · exact h.takeFault e
  · exact .of_not_awaiting ((hm.storeCell hdest r).of_eq rfl rfl) h.no_info (by simp [hr]) (by simp [hr])
  · exact h.setPc hr y
  · exact h.setPc hr _
  · have hp := hk ▸ pends_of_decoded hv hd (hk ▸ rfl)
    exact ⟨hm.of_eq rfl rfl, h.no_info, fun _ => hp.of_eq rfl rfl rfl, nofun⟩
  · have hp := hk ▸ pends_of_decoded hv hd (hk ▸ rfl)
    exact ⟨hm.of_eq rfl rfl, h.no_info, nofun, fun _ => hp.of_eq rfl rfl rfl⟩
  · exact h.setRunState_stopped

/-- Settles O40: a step that executes nothing takes a fault, stops the Machine or changes nothing. -/
theorem everyStepKeepsTheInvariant : Obligations.EveryStepKeepsTheInvariant := by
  intro s t h ht
  cases step_cases ht with
  | recordedFault | alreadyStopped => exact h
  | awaiting | negativePc | illegalOpcode | illegalMode => exact h.takeFault _
  | ranOff | truncated => exact h.setRunState_stopped
  | executed i _ _ hr hv hd hexec => exact h.exec hr hv hd hexec

/-! ### Host commands -/

theorem State.Inv.supplyInput {s : State} (v : Word) (h : s.Inv) : (supplyInput v s).1.Inv := by
  rcases supplyInput_cases v s with ⟨-, e, he⟩ | ⟨c, -, he⟩ | ⟨-, -, t, hok, he⟩ <;> rw [he]
  · exact h.takeFault e
  · exact h
  · obtain ⟨m1, raw1, -, hdest, rfl⟩ := completeIn_ok hok
    exact .of_not_awaiting ((h.memory.storeCell hdest v).of_eq rfl rfl) h.no_info nofun nofun

theorem State.Inv.takeOutput {s : State} (h : s.Inv) : (takeOutput s).1.Inv := by
  rcases takeOutput_cases s with ⟨-, e, he⟩ | ⟨c, -, he⟩ | ⟨-, -, ⟨t, x⟩, hok, he⟩ <;> rw [he]
  · exact h.takeFault e
  · exact h
  · obtain ⟨m1, raw1, -, -, rfl⟩ := completeOut_ok hok
    exact .of_not_awaiting (h.memory.of_eq rfl rfl) h.no_info nofun nofun

/-- The memory of a snapshot of legal length is sound, and a new Machine runs. -/
theorem create_inv {ovf : Overflow} {ws : List Word} {m : State} (h : create ovf ws = some m) : m.Inv := by
  obtain ⟨hpos, hle, rfl⟩ := create_some h
  refine .of_not_awaiting ⟨hpos, hle, Memory.ofWords_wf 0 ws, fun c hc => ?_⟩ (fun _ => rfl) nofun nofun
  obtain ⟨-, hlt, -⟩ := Memory.mem_ofWords hc
  exact lt_of_lt_of_eq hlt (Nat.zero_add _)

/-- A step's report is a fault or a status. -/
theorem State.report_ne_machine (s m : State) : s.report ≠ .machine m := by
  unfold State.report
  split <;> simp

/-- run reports a count or a fault. -/
theorem run_ne_machine {fuel : Nat} {s t m : State} : run fuel s ≠ some (t, .machine m) := by
  intro h
  cases hf : s.fault with
  | some c => simp [run_of_fault hf] at h
  | none =>
    by_cases hr : s.runState = .running
    · obtain ⟨n, u, r', -, hlast, -, hreport⟩ := okSteps_of_run hf hr h
      obtain ⟨-, rfl⟩ := stepCommand_some hlast
      unfold State.report at hreport
      split at hreport <;> simp [Statement.runReport] at hreport
    · simp [run_of_not_running fuel hf hr] at h

/-- Only create and copy make a Machine. -/
theorem perform_machine {fuel : Nat} {c : Command} {s t m : State} (h : perform fuel c s = some (t, .machine m)) :
    (∃ ws, create s.ovf ws = some m) ∨ m = s := by
  cases c with
  | create ws =>
    simp only [perform] at h
    split at h
    · rename_i hws
      cases h
      exact .inl ⟨ws, hws⟩
    · cases h
  | step => exact absurd (stepCommand_some h).2.symm (t.report_ne_machine m)
  | supplyInput v =>
    rcases supplyInput_cases v s with ⟨-, e, he⟩ | ⟨c, -, he⟩ | ⟨-, -, u, -, he⟩ <;> simp [he] at h
  | takeOutput =>
    rcases takeOutput_cases s with ⟨-, e, he⟩ | ⟨c, -, he⟩ | ⟨-, -, p, -, he⟩ <;> simp [he] at h
  | run => exact absurd h run_ne_machine
  | peek a => simp only [perform] at h; split at h <;> cases h
  | isRunning => cases h
  | copy => cases h; exact .inr rfl

/-- Settles O41: the commands are made of steps and completions, which keep the invariant, and a Machine that is made is
new or a copy. -/
theorem everyCommandKeepsTheInvariant : Obligations.EveryCommandKeepsTheInvariant := by
  intro fuel c s t r hs h
  have ht : t.Inv := perform_keeps (everyStepKeepsTheInvariant _ _) State.Inv.supplyInput State.Inv.takeOutput hs h
  refine ⟨ht, ?_⟩
  rintro m rfl
  rcases perform_machine h with ⟨ws, hws⟩ | rfl
  · exact create_inv hws
  · exact hs

/-! ### The advance past an instruction -/

/-- Adding a number to a pc that stays in range adds it as integers. -/
theorem advance_pc_toInt {s : State} {n : Nat} (h0 : 0 ≤ s.pc.toInt) (h : s.pc.toInt + n < 2147483648) :
    (s.advance n).pc.toInt = s.pc.toInt + n := by
  have hnat := toNat_of_nonneg h0
  have hsum : (s.advance n).pc.toNat = s.pc.toNat + n := by
    rw [State.advance_pc, BitVec.toNat_add, BitVec.toNat_ofNat]
    omega
  rw [BitVec.toInt_eq_toNat_of_lt (by omega), hsum]
  omega

/-- Settles O36: a decoded instruction ends within memory, and memory within the signed words. -/
theorem sequentialAdvanceNeverWraps : Obligations.SequentialAdvanceNeverWraps := by
  intro s i hs hv hd
  obtain ⟨hfits, -⟩ := decoded_fits hv hd
  have hlen : s.memLen ≤ 2147483647 := hs.memory.len_le
  exact ⟨advance_pc_toInt hv.1 (by omega), hfits⟩

end Sys2Proof.Machine

/-! ## create and reset (46_host_interface.md R192, 70_reset_and_hazards.md R250) -/

namespace Sys2Proof.Machine

/-- Settles O37: the values of `create_some`, and the cells of a snapshot. -/
theorem createGivesTheResetState : Obligations.CreateGivesTheResetState := by
  intro ovf ws
  refine ⟨create_eq_none, fun m hm => ?_⟩
  have hinv := create_inv hm
  obtain ⟨-, -, rfl⟩ := create_some hm
  refine ⟨fun k hk => ?_, rfl, rfl, rfl, rfl, rfl, rfl, hinv⟩
  have hcell := Memory.lookup_ofWords ws 0 k
  rw [Nat.zero_add] at hcell
  rw [State.cell, hcell]
  simp [hk]

/-- Settles O38: a snapshot of zeros lists no cell. -/
theorem resetIsCreateOfZeros : Obligations.ResetIsCreateOfZeros := by
  refine ⟨rfl, fun n hpos hle => ?_⟩
  have hlegal : ¬(n = 0 ∨ Config.maxMemLen < n) := by
    have hle : n ≤ Config.maxMemLen := hle
    omega
  rw [create, List.length_replicate, if_neg hlegal, Memory.ofWords_replicate_zero]
  rfl

/-- Settles O39: the memory of `State.reset` lists no cell. -/
theorem resetMeetsTheInvariant : Obligations.ResetMeetsTheInvariant :=
  .of_not_awaiting ⟨by decide, le_refl _, ⟨.nil, nofun⟩, nofun⟩ (fun _ => rfl) nofun nofun

end Sys2Proof.Machine

/-! ## Kinds and widths (30_encoding.md R60, R63) -/

namespace Sys2Proof

theorem encode_length (i : Instr) : (encode i).length = i.width := by
  rw [encode, List.length_cons, operands_length, Instr.width, Kind.width_eq_nparams_succ]

theorem Kind.width_le (k : Kind) : k.width ≤ 4 := by cases k <;> decide

/-- The storing kinds are neither jumps nor among those that only set the run state. -/
theorem Kind.storing_disjoint {k : Kind} (h : k ∈ [Kind.add, .mul, .lt, .eq]) :
    k ∉ [Kind.jt, .jf] ∧ k ∉ [Kind.inp, .out, .halt] := by
  revert h
  cases k <;> decide

end Sys2Proof

/-! ## A step of a Machine that fetches (40_step_and_decode.md R101 to R108) -/

namespace Sys2Proof.Machine

open Statement

theorem step_of_fault {s : State} {c : Cause} (hf : s.fault = some c) : step s = .next s := by
  simp [step, frontEnd, hf]

/-- Settles O11: the fault gate, and the report of a recorded fault. -/
theorem stepReportsARecordedFaultAgain : Obligations.StepReportsARecordedFaultAgain := by
  intro s c hf
  have hstep := step_of_fault hf
  exact ⟨hstep, State.report_of_fault hf ▸ stepCommand_of_step hstep⟩

theorem step_of_fetchDecode_ends {s t : State} (hf : s.fault = none) (hr : s.runState = .running)
    (h : fetchDecode s = .ends t) : step s = .next t := by
  simp [step, frontEnd, hf, hr, h]

/-- Settles O9: a decoded instruction is dispatched. -/
theorem stepExecutesTheDecodedInstruction : Obligations.StepExecutesTheDecodedInstruction := by
  rintro s i ⟨hf, hr, hlo, hhi⟩ hd
  have hruns : fetchDecode s = .runs i := by
    rw [fetchDecode, if_neg (by omega), if_neg (by omega), hd]
  simp [step, frontEnd, hf, hr, hruns]

/-- Settles O13: the two range checks of the fetch. -/
theorem fetchOutsideMemory : Obligations.FetchOutsideMemory := by
  intro s hf hr
  refine ⟨fun hneg => step_of_fetchDecode_ends hf hr (if_pos hneg), fun hpast h0 => ?_⟩
  have hends : fetchDecode s = .ends (s.setRunState .stopped) := by
    rw [fetchDecode, if_neg (by omega), if_pos hpast]
  exact step_of_fetchDecode_ends hf hr hends

/-- Settles O14: the tables of O4 say how the word at the pc is rejected. -/
theorem illegalWordsFault : Obligations.IllegalWordsFault := by
  intro s hs w
  obtain ⟨hopcode, hmode, -⟩ := decodeChecksOpcodeThenModes w
  refine ⟨fun hop => step_of_decodeWord_error hs (hopcode.2 hop), fun hop ⟨k, hk, hdigit⟩ => ?_⟩
  refine step_of_decodeWord_error hs (hmode.2 ⟨hop, fun ⟨h2, h3, h4⟩ => ?_⟩)
  simp only [List.mem_cons, List.not_mem_nil, or_false] at hk
  obtain ⟨hne0, hne1⟩ := hdigit
  rcases hk with rfl | rfl | rfl
  · exact h2.elim hne0 hne1
  · exact h3.elim hne0 hne1
  · exact h4.elim hne0 hne1

/-! ### The instruction stored at the pc -/

/-- The words of consecutive cells are read one by one. -/
theorem Memory.window_getElem (m : Memory) {start n k : Nat} (hk : k < (Memory.window m start n).length) :
    (Memory.window m start n)[k] = Memory.lookup m (start + k) := by
  induction n generalizing start k with
  | zero => cases hk
  | succ n ih =>
    cases k with
    | zero => rfl
    | succ k =>
      simp only [Memory.window, List.getElem_cons_succ, ih]
      rw [Nat.add_right_comm, Nat.add_assoc]

/-- The cells read at the pc begin with the words that stand there, also where memory ends with them. -/
theorem instrCells_of_storedAtPc {s : State} {i : Instr} (hv : s.ValidAddr s.pc) (hst : StoredAtPc s i) :
    ∃ rest, s.instrCells = encode i ++ rest := by
  obtain ⟨hfits, hwords⟩ := hst
  have hnat := hv.toNat_eq
  have hwidth : i.width ≤ 4 := Kind.width_le i.kind
  obtain ⟨n, hn⟩ : ∃ n, min 4 (s.memLen - s.pc.toNat) = i.width + n := Nat.exists_eq_add_of_le (by omega)
  have hwindow : Memory.window s.mem s.pc.toNat i.width = encode i := by
    refine List.ext_getElem (by rw [Memory.window_length, encode_length]) fun k hk hk' => ?_
    have hcell := hwords k hk'
    rw [getElem!_pos (encode i) k hk'] at hcell
    exact (Memory.window_getElem s.mem hk).trans hcell
  exact ⟨Memory.window s.mem (s.pc.toNat + i.width) n, by rw [State.instrCells, hn, Memory.window_add, hwindow]⟩

/-- Settles O10: the words that stand at the pc decode to the instruction they encode. -/
theorem stepRunsTheInstructionStoredAtThePc : Obligations.StepRunsTheInstructionStoredAtThePc := by
  intro s i hs hwf hst
  have ⟨_, _, hv⟩ := hs
  obtain ⟨rest, hcells⟩ := instrCells_of_storedAtPc hv hst
  exact stepExecutesTheDecodedInstruction s i hs (hcells ▸ decodeOfEncodeIsTheInstruction i rest hwf)

/-! ### The status of a step (R116) -/

theorem statusOf_eq_ok {k : Kind} (h : k ∈ [Kind.add, .mul, .lt, .eq] ∨ k ∈ [Kind.jt, .jf]) :
    statusOf k = .ok := by
  revert h
  cases k <;> decide

/-- Without a fault, IN, OUT and HALT move the run state to the one of their status; the others keep it. -/
theorem exec_runState_status {i : Instr} {s t : State} (h : exec i s = .next t) (hr : s.runState = .running)
    (ht : t.fault = none) : t.runState.status = statusOf i.kind := by
  rcases exec_cases h with ⟨e, rfl, -⟩ | ⟨hk, d, r, -, -, rfl⟩ | ⟨hk, y, p, -, -, rfl | rfl⟩ | ⟨hk, rfl⟩ |
    ⟨hk, rfl⟩ | ⟨hk, rfl⟩
  · cases ht
  · rw [statusOf_eq_ok (.inl hk), State.advance_runState, State.storeCell_runState, hr]; rfl
  · rw [statusOf_eq_ok (.inr hk), State.setPc_runState, hr]; rfl
  · rw [statusOf_eq_ok (.inr hk), State.advance_runState, hr]; rfl
  · rw [hk]; rfl
  · rw [hk]; rfl
  · rw [hk]; rfl

/-- Settles O17: the report is read off the state after the step. -/
theorem stepReportsTheStatusOfItsInstruction : Obligations.StepReportsTheStatusOfItsInstruction := by
  rintro s t i hs hd ht
  have ⟨_, hr, _⟩ := hs
  have hexec := (stepExecutesTheDecodedInstruction s i hs hd).symm.trans ht
  rw [stepCommand_of_step ht]
  refine ⟨fun hf => ?_, fun c hf => by rw [State.report_of_fault hf]⟩
  rw [State.report_of_no_fault hf, exec_runState_status hexec hr hf]

end Sys2Proof.Machine

/-! ## Which faults an instruction takes (60_exceptions.md R220) -/

namespace Sys2Proof.Machine

open Statement

/-- Settles O27: a value that fits is read back from its word, and any other word is its residue. -/
theorem fitFollowsTheOverflowPolicy : Obligations.FitFollowsTheOverflowPolicy := by
  intro ovf w v
  refine ⟨fun hv => ⟨_, fit_ok_of_fits_or_wrap w (.inl hv), wrapW_toInt hv⟩, ?_, ?_⟩
  · rintro hv rfl
    exact fit_fault_of_not_fits w hv
  · rintro - rfl
    exact ⟨_, fit_ok_of_fits_or_wrap w (.inr rfl), wrapW_congr v⟩

/-- `e` is a fault that the instruction with the word `w` can raise: out of bounds, or an overflow where the policy is
to fault. Tied to `exec` by `exec_fault`. -/
def InstructionFault (ovf : Overflow) (w : Word) (e : Raised) : Prop :=
  e.cause = .outOfBounds ∨ (e = ⟨.arithmeticOverflow, w⟩ ∧ ovf = .fault)

/-- An instruction of format F4 keeps the fault register, or takes a fault of its operands or its computation. -/
theorem finish_binaryToCell_fault {f : Word → Word → Except Raised Word} {h : Header} {a b d w : Word} {s t : State}
    (ht : finish s (binaryToCell f h a b d s) = .next t)
    (hf : ∀ x y e, f x y = .error e → InstructionFault s.ovf w e) :
    t.fault = s.fault ∨ ∃ e, t = s.takeFault e ∧ InstructionFault s.ovf w e := by
  rcases finish_next ht with hok | ⟨e, he, rfl⟩
  · obtain ⟨x, y, r, -, -, -, -, rfl⟩ := binaryToCell_ok hok
    exact .inl rfl
  · rcases binaryToCell_error he with hout | ⟨x, y, hxy⟩
    · exact .inr ⟨e, rfl, .inl hout⟩
    · exact .inr ⟨e, rfl, hf x y e hxy⟩

/-- An instruction keeps the fault register, or takes one of the two faults an instruction can raise. -/
theorem exec_fault {i : Instr} {s t : State} (h : exec i s = .next t) :
    t.fault = s.fault ∨ ∃ e, t = s.takeFault e ∧ InstructionFault s.ovf (headerWord i.kind i.header) e := by
  cases i with
  | inp hd a | out hd a | halt hd => exact .inl (by rw [← Host.Outcome.next.inj h]; rfl)
  | add hd a b d | mul hd a b d => exact finish_binaryToCell_fault h fun x y e hxy => .inr (fit_error hxy)
  | lt hd a b d | eq hd a b d => exact finish_binaryToCell_fault h fun x y e hxy => by cases hxy
  | jt hd c p | jf hd c p =>
    rcases finish_next h with hok | ⟨e, he, rfl⟩
    · obtain ⟨x, y, -, -, rfl⟩ := jumpWhen_ok hok
      exact .inl (by split <;> rfl)
    · exact .inr ⟨e, rfl, .inl (jumpWhen_error he)⟩

/-- Settles O28: only the range check of the executed instruction raises an overflow, and its word, ignored digits
included, is the one that was decoded. -/
theorem overflowRecordsTheFetchedWord : Obligations.OverflowRecordsTheFetchedWord := by
  rintro s t ⟨hf, hr, hv⟩ hstep ht
  cases step_cases hstep with
  | recordedFault _ hf' => cases hf.symm.trans hf'
  | alreadyStopped _ hr' => cases hr.symm.trans hr'
  | ranOff | truncated => cases hf.symm.trans ht
  | awaiting | negativePc | illegalOpcode | illegalMode => cases ht
  | executed i _ _ _ _ hd hexec =>
    rcases exec_fault hexec with hkept | ⟨e, rfl, hout | ⟨rfl, hovf⟩⟩
    · cases hf.symm.trans (hkept.symm.trans ht)
    · cases hout.symm.trans (Option.some.inj ht)
    · obtain ⟨-, hword⟩ := decoded_fits hv hd
      exact ⟨(eq_headerWord_of_decodeWord_ok hword).2.symm, hovf⟩

end Sys2Proof.Machine

/-! ## What an instruction leaves unchanged (41_arithmetic.md to 45_stop.md) -/

namespace Sys2Proof.Machine

open Statement

/-- Format F4 takes a fault, or writes the cell that operand 3 names and advances. -/
theorem exec_cases_of_storing {i : Instr} {s t : State} (hk : i.kind ∈ [Kind.add, .mul, .lt, .eq])
    (h : exec i s = .next t) :
    (∃ e, t = s.takeFault e) ∨
      ∃ d r, i.operands[2]? = some d ∧ s.ValidAddr d ∧ t = (s.storeCell d.toNat r).advance 4 := by
  obtain ⟨hjump, hannounce⟩ := Kind.storing_disjoint hk
  rcases exec_cases h with ⟨e, he, -⟩ | ⟨-, hstores⟩ | ⟨hk', -⟩ | ⟨hk', -⟩ | ⟨hk', -⟩ | ⟨hk', -⟩
  · exact .inl ⟨e, he⟩
  · exact .inr hstores
  · exact absurd hk' hjump
  · exact absurd (by simp [hk']) hannounce
  · exact absurd (by simp [hk']) hannounce
  · exact absurd (by simp [hk']) hannounce

/-- Settles O29: format F4 writes the cell that operand 3 names and the pc, or takes a fault. -/
theorem storingInstructionsFrame : Obligations.StoringInstructionsFrame := by
  intro h a b d s t i hi hexec
  have hstores : i.kind ∈ [Kind.add, .mul, .lt, .eq] ∧ i.operands[2]? = some d := by
    simp only [List.mem_cons, List.not_mem_nil, or_false] at hi
    rcases hi with rfl | rfl | rfl | rfl <;> simp [Instr.kind, Instr.operands]
  obtain ⟨hk, hd⟩ := hstores
  rcases exec_cases_of_storing hk hexec with ⟨e, rfl⟩ | ⟨d', r, hd', hv, rfl⟩
  · exact ⟨fun _ _ => rfl, fun _ => rfl, rfl, rfl, rfl, .inr ⟨e.cause, e.info, rfl⟩⟩
  · obtain rfl : d = d' := Option.some.inj (hd.symm.trans hd')
    exact ⟨fun c hc => by simp [hc], fun hn => absurd hv hn, rfl, rfl, rfl, .inl ⟨rfl, rfl, rfl⟩⟩

/-- A jump takes a fault or changes the pc alone. -/
theorem exec_cases_of_jump {i : Instr} {s t : State} (hk : i.kind ∈ [Kind.jt, .jf]) (h : exec i s = .next t) :
    (∃ e, t = s.takeFault e) ∨ ∃ pc, t = s.setPc pc := by
  rcases exec_cases h with ⟨e, he, -⟩ | ⟨hk', -⟩ | ⟨-, y, p, -, -, rfl | rfl⟩ | ⟨hk', -⟩ | ⟨hk', -⟩ | ⟨hk', -⟩
  · exact .inl ⟨e, he⟩
  · exact absurd hk (Kind.storing_disjoint hk').1
  · exact .inr ⟨y, rfl⟩
  · exact .inr ⟨_, rfl⟩
  · simp [hk'] at hk
  · simp [hk'] at hk
  · simp [hk'] at hk

/-- Settles O30: IN, OUT and HALT set the run state by their definition, and a jump the pc. -/
theorem nonStoringInstructionsFrame : Obligations.NonStoringInstructionsFrame := by
  intro h a b s t
  refine ⟨fun i hi hexec => ?announces, fun i hi hexec => ?jumps⟩ <;>
    simp only [List.mem_cons, List.not_mem_nil, or_false] at hi
  case announces =>
    rcases hi with rfl | rfl | rfl <;> cases hexec <;> exact ⟨fun _ => rfl, rfl⟩
  case jumps =>
    have hk : i.kind ∈ [Kind.jt, .jf] := by rcases hi with rfl | rfl <;> simp [Instr.kind]
    rcases exec_cases_of_jump hk hexec with ⟨e, rfl⟩ | ⟨pc, rfl⟩
    · exact ⟨fun _ => rfl, .inr ⟨e.cause, e.info, rfl⟩⟩
    · exact ⟨fun _ => rfl, .inl rfl⟩

end Sys2Proof.Machine

/-! ## Reads after a write (20_memory.md R44, R51) -/

namespace Sys2Proof.Machine

/-- A read after a write to another address answers as before, with a word or a fault. -/
theorem memRead_storeCell_of_ne {s : State} {a b : Word} (v : Word) (h : b ≠ a) :
    memRead (s.storeCell a.toNat v) b = memRead s b := by
  have hne : b.toNat ≠ a.toNat := fun he => h (BitVec.eq_of_toNat_eq he)
  rw [memRead, memRead, State.cell_storeCell, if_neg hne]
  rfl

/-- Settles O32: `MemWrite` at an invalid and at a valid address, and the cells after it. -/
theorem readsSeeTheLastWrite : Obligations.ReadsSeeTheLastWrite := by
  intro s a v
  refine ⟨fun hout => memWrite_invalid v ?_, fun hlo hhi => ⟨_, memWrite_valid v ⟨hlo, hhi⟩, ?_, fun b hb => ?_⟩⟩
  · rintro ⟨hlo, hhi⟩
    omega
  · have hv : (s.storeCell a.toNat v).ValidAddr a := ⟨hlo, hhi⟩
    rw [memRead_valid hv, State.cell_storeCell, if_pos rfl]
  · exact memRead_storeCell_of_ne v hb

end Sys2Proof.Machine

/-! ## What may write memory, the pc and the run state (40_step_and_decode.md R113, 46_host_interface.md R190, R200) -/

namespace Sys2Proof.Machine

open Statement

/-! ### Memory -/

theorem takeOutput_mem (s : State) : (takeOutput s).1.mem = s.mem := by
  rcases takeOutput_cases s with ⟨-, e, he⟩ | ⟨c, -, he⟩ | ⟨-, -, ⟨t, x⟩, hok, he⟩ <;> rw [he]
  · rfl
  · obtain ⟨m1, raw1, -, -, rfl⟩ := completeOut_ok hok
    rfl

/-- Settles O34: OUT's completion holds memory, and of a step's ends only a format F4 instruction writes it. -/
theorem onlyStoresAndInputWriteMemory : Obligations.OnlyStoresAndInputWriteMemory := by
  refine ⟨fun fuel c s t r h hstep hrun hsupply => ?command, fun s t h hmem => ?step⟩
  case command =>
    cases hacts : c.acts with
    | false => rw [(perform_observer hacts h).1]
    | true =>
      cases c with
      | takeOutput =>
        rw [perform_takeOutput] at h
        rw [← takeOutput_mem s, Option.some.inj h]
      | step => exact absurd rfl hstep
      | run => exact absurd rfl hrun
      | supplyInput v => exact absurd rfl (hsupply v)
      | create | peek | isRunning | copy => cases hacts
  case step =>
    cases step_cases h with
    | recordedFault | alreadyStopped | awaiting | negativePc | ranOff | illegalOpcode | illegalMode | truncated =>
      exact absurd rfl hmem
    | executed i _ _ _ _ hd hexec =>
      rcases exec_cases hexec with ⟨e, rfl, -⟩ | ⟨hk, -⟩ | ⟨-, y, p, -, -, rfl | rfl⟩ | ⟨-, rfl⟩ | ⟨-, rfl⟩ | ⟨-, rfl⟩
      case inr.inl => exact ⟨i, hd, hk⟩
      all_goals exact absurd rfl hmem

/-! ### The pc -/

theorem reads_of_resolve {s : State} {raw v : Word} {m : Mode} (h : resolve s raw m = .ok v) : Reads s raw m v := by
  cases m with
  | position => exact ⟨fun _ => memRead_ok h, nofun⟩
  | immediate => exact ⟨nofun, fun _ => (Except.ok.inj h).symm⟩

/-- The pc after an instruction that changed it. -/
theorem exec_pc {i : Instr} {s t : State} (h : exec i s = .next t) (hpc : t.pc ≠ s.pc) :
    t.fault = s.fault ∧ t.runState = s.runState ∧
      ((i.kind ∈ [Kind.add, .mul, .lt, .eq] ∧ t.pc = s.pc + 4) ∨
       (i.kind ∈ [Kind.jt, .jf] ∧ (t.pc = s.pc + 3 ∨
          ∃ p, i.operands[1]? = some p ∧ Reads s p i.header.m2 t.pc))) := by
  rcases exec_cases h with ⟨e, rfl, -⟩ | ⟨hk, d, r, -, -, rfl⟩ | ⟨hk, y, p, hp, hy, rfl | rfl⟩ | ⟨-, rfl⟩ | ⟨-, rfl⟩ |
    ⟨-, rfl⟩
  case inr.inl => exact ⟨rfl, rfl, .inl ⟨hk, rfl⟩⟩
  case inr.inr.inl.inl => exact ⟨rfl, rfl, .inr ⟨hk, .inr ⟨p, hp, reads_of_resolve hy⟩⟩⟩
  case inr.inr.inl.inr => exact ⟨rfl, rfl, .inr ⟨hk, .inl rfl⟩⟩
  all_goals exact absurd rfl hpc

/-- Settles O35: of a step's ends only an executed instruction changes the pc, and of a completion's only the one that
completes. -/
theorem pcTakesOnlyTheMultiplexerInputs : Obligations.PcTakesOnlyTheMultiplexerInputs := by
  refine ⟨fun s t h hpc => ?step, fun v s => ?supplyInput, fun s => ?takeOutput⟩
  case step =>
    cases step_cases h with
    | recordedFault | alreadyStopped | awaiting | negativePc | ranOff | illegalOpcode | illegalMode | truncated =>
      exact absurd rfl hpc
    | executed i _ hf hr _ hd hexec =>
      obtain ⟨hfault, hrun, hmux⟩ := exec_pc hexec hpc
      exact ⟨hfault.trans hf, hrun.trans hr, i, hd, hmux⟩
  case supplyInput =>
    rcases supplyInput_cases v s with ⟨-, e, he⟩ | ⟨c, -, he⟩ | ⟨-, -, t, hok, he⟩ <;> rw [he]
    · exact .inl rfl
    · exact .inl rfl
    · obtain ⟨m1, raw1, -, -, rfl⟩ := completeIn_ok hok
      exact .inr ⟨rfl, rfl⟩
  case takeOutput =>
    rcases takeOutput_cases s with ⟨-, e, he⟩ | ⟨c, -, he⟩ | ⟨-, -, ⟨t, x⟩, hok, he⟩ <;> rw [he]
    · exact .inl rfl
    · exact .inl rfl
    · obtain ⟨m1, raw1, -, -, rfl⟩ := completeOut_ok hok
      exact .inr ⟨⟨x, rfl⟩, rfl⟩

/-! ### The run state -/

theorem step_runState {s t : State} (h : step s = .next t) : t.runState = s.runState ∨ s.runState = .running := by
  cases step_cases h with
  | recordedFault | alreadyStopped | awaiting => exact .inl rfl
  | negativePc _ hr | ranOff _ hr | illegalOpcode _ _ hr | illegalMode _ _ hr | truncated _ hr
  | executed _ _ _ hr => exact .inr hr

theorem state_eq_of_run_not_running {fuel : Nat} {s t : State} {r : Response} (hr : s.runState ≠ .running)
    (h : run fuel s = some (t, r)) : t = s := by
  cases hf : s.fault with
  | some c => rw [run_of_fault hf] at h; cases h; rfl
  | none => rw [run_of_not_running fuel hf hr] at h; cases h; rfl

/-- Settles O46: step and run move only a running Machine, and a completion only its own awaiting one. -/
theorem runStateMovesOnlyFromTheListedStatesByTheListedCommands :
    Obligations.RunStateMovesOnlyFromTheListedStatesByTheListedCommands := by
  intro fuel c s t r h
  cases c with
  | create | peek | isRunning | copy => exact .inl (by rw [(perform_observer rfl h).1])
  | step =>
    rcases step_runState (stepCommand_some h).1 with hkept | hr
    · exact .inl hkept.symm
    · exact .inr (.inl ⟨hr, .inl rfl⟩)
  | run =>
    by_cases hr : s.runState = .running
    · exact .inr (.inl ⟨hr, .inr rfl⟩)
    · exact .inl (by rw [state_eq_of_run_not_running hr h])
  | supplyInput v =>
    rw [perform_supplyInput] at h
    rcases supplyInput_cases v s with ⟨-, e, he⟩ | ⟨c, -, he⟩ | ⟨-, hr, u, hok, he⟩ <;> rw [he] at h <;> cases h
    · exact .inl rfl
    · exact .inl rfl
    · obtain ⟨m1, raw1, -, -, rfl⟩ := completeIn_ok hok
      exact .inr (.inr (.inl ⟨hr, rfl, v, rfl⟩))
  | takeOutput =>
    rw [perform_takeOutput] at h
    rcases takeOutput_cases s with ⟨-, e, he⟩ | ⟨c, -, he⟩ | ⟨-, hr, ⟨u, x⟩, hok, he⟩ <;> rw [he] at h <;> cases h
    · exact .inl rfl
    · exact .inl rfl
    · obtain ⟨m1, raw1, -, -, rfl⟩ := completeOut_ok hok
      exact .inr (.inr (.inr ⟨hr, rfl, rfl⟩))

end Sys2Proof.Machine

/-! ## Recorded faults (10_state.md R25, R26, 60_exceptions.md R225) -/

namespace Sys2Proof.Machine

open Statement

/-- Settles O48: the commands that act report the fault at their gate, and the others change nothing. -/
theorem recordedFaultIsSticky : Obligations.RecordedFaultIsSticky := by
  intro fuel c s t r f hf h
  cases c with
  | create | peek | isRunning | copy => exact ⟨(perform_observer rfl h).1, by simp⟩
  | step =>
    rw [perform_step, (stepReportsARecordedFaultAgain s f hf).2] at h
    cases h
    exact ⟨rfl, fun _ => rfl⟩
  | supplyInput v =>
    rw [perform_supplyInput, supplyInput, completion_of_fault hf] at h
    cases h
    exact ⟨rfl, fun _ => rfl⟩
  | takeOutput =>
    rw [perform_takeOutput, takeOutput, completion_of_fault hf] at h
    cases h
    exact ⟨rfl, fun _ => rfl⟩
  | run =>
    rw [perform_run, run_of_fault hf] at h
    cases h
    exact ⟨rfl, fun _ => rfl⟩

/-- A command that led from `s` to `t` and reported `r` was precise: the fault it reports is recorded and nothing else
changed, and without a reported fault the fault registers are those of `s`. -/
structure Precise (s t : State) (r : Response) : Prop where
  recorded : ∀ f info, r = .fault f info → t = faulted s f info
  kept : (∀ f info, r ≠ .fault f info) → t.fault = s.fault ∧ t.faultInfo = s.faultInfo

/-- Reporting the recorded fault again. -/
theorem Precise.again {s : State} {c : Cause} (hf : s.fault = some c) : Precise s s (.fault c s.faultInfo) where
  recorded := by rintro f info ⟨rfl, rfl⟩; rw [faulted, ← hf]
  kept h := absurd rfl (h c s.faultInfo)

theorem Precise.raised (s : State) (e : Raised) : Precise s (s.takeFault e) (.fault e.cause e.info) where
  recorded := by rintro f info ⟨rfl, rfl⟩; rfl
  kept h := absurd rfl (h e.cause e.info)

theorem Precise.of_kept {s t : State} {r : Response} (hr : ∀ f info, r ≠ .fault f info) (hf : t.fault = s.fault)
    (hi : t.faultInfo = s.faultInfo) : Precise s t r where
  recorded f info h := absurd h (hr f info)
  kept _ := ⟨hf, hi⟩

/-- A Machine that had no fault and has none after the step reports a status. -/
theorem Precise.status {s t : State} (hs : s.fault = none) (hf : t.fault = s.fault)
    (hi : t.faultInfo = s.faultInfo) : Precise s t t.report :=
  .of_kept (by simp [State.report_of_no_fault (hf.trans hs)]) hf hi

theorem step_precise {s t : State} (h : step s = .next t) : Precise s t t.report := by
  cases step_cases h with
  | recordedFault c hf => exact State.report_of_fault hf ▸ .again hf
  | awaiting | negativePc | illegalOpcode | illegalMode => exact .raised s _
  | alreadyStopped hf | ranOff hf | truncated hf => exact .status hf rfl rfl
  | executed i _ hf _ _ _ hexec =>
    rcases exec_cases hexec with ⟨e, rfl, -⟩ | ⟨-, d, r, -, -, rfl⟩ | ⟨-, y, p, -, -, rfl | rfl⟩ | ⟨-, rfl⟩ |
      ⟨-, rfl⟩ | ⟨-, rfl⟩
    case inl => exact .raised s e
    all_goals exact .status hf rfl rfl

theorem supplyInput_precise (v : Word) (s : State) : Precise s (supplyInput v s).1 (supplyInput v s).2 := by
  rcases supplyInput_cases v s with ⟨-, e, he⟩ | ⟨c, hf, he⟩ | ⟨-, -, t, hok, he⟩ <;> rw [he]
  · exact .raised s e
  · exact .again hf
  · obtain ⟨m1, raw1, -, -, rfl⟩ := completeIn_ok hok
    exact .of_kept nofun rfl rfl

theorem takeOutput_precise (s : State) : Precise s (takeOutput s).1 (takeOutput s).2 := by
  rcases takeOutput_cases s with ⟨-, e, he⟩ | ⟨c, hf, he⟩ | ⟨-, -, ⟨t, x⟩, hok, he⟩ <;> rw [he]
  · exact .raised s e
  · exact .again hf
  · obtain ⟨m1, raw1, -, -, rfl⟩ := completeOut_ok hok
    exact .of_kept nofun rfl rfl

theorem perform_precise {fuel : Nat} {c : Command} {s t : State} {r : Response} (hc : c ≠ .run)
    (h : perform fuel c s = some (t, r)) : Precise s t r := by
  cases c with
  | create | peek | isRunning | copy =>
    obtain ⟨rfl, hr, -⟩ := perform_observer rfl h
    exact .of_kept hr rfl rfl
  | step =>
    obtain ⟨hstep, rfl⟩ := stepCommand_some h
    exact step_precise hstep
  | supplyInput v =>
    have hp := supplyInput_precise v s
    rwa [Option.some.inj h] at hp
  | takeOutput =>
    have hp := takeOutput_precise s
    rwa [Option.some.inj h] at hp
  | run => exact absurd rfl hc

/-- Settles O49: every command but run is precise. -/
theorem faultsArePrecise : Obligations.FaultsArePrecise := by
  intro fuel c s t r hc h
  obtain ⟨hrecorded, hkept⟩ := perform_precise hc h
  exact ⟨hrecorded, hkept⟩

end Sys2Proof.Machine

/-! ## Contract violations (42_io.md R147, 46_host_interface.md R202) -/

namespace Sys2Proof.Machine

open Statement

/-- Settles O44: a take_output that yields a value leaves a running Machine without a fault. -/
theorem secondTakeOutputIsAViolation : Obligations.SecondTakeOutputIsAViolation := by
  intro s x hx
  rcases takeOutput_cases s with ⟨-, e, he⟩ | ⟨c, -, he⟩ | ⟨hf, -, ⟨t, y⟩, hok, he⟩ <;> rw [he] at hx ⊢
  · cases hx
  · cases hx
  · obtain ⟨m1, raw1, -, -, rfl⟩ := completeOut_ok hok
    exact takeOutput_of_not_awaitingOutput hf nofun

/-- Where the matrix forbids a command, its gate raises the violation. -/
theorem perform_of_not_allowed {fuel : Nat} {c : Command} {s : State} (hf : s.fault = none)
    (h : allowed c s.runState = false) :
    perform fuel c s = some (faulted s .contractViolation c.code, .fault .contractViolation c.code) := by
  cases c with
  | create | run | peek | isRunning | copy => cases h
  | step =>
    have hr : s.runState = .awaitingInput ∨ s.runState = .awaitingOutput := by
      revert h
      cases s.runState <;> simp [allowed]
    exact stepCommand_of_step (step_of_awaiting hf hr)
  | supplyInput v => exact congrArg some (supplyInput_of_not_awaitingInput v hf (of_decide_eq_false h))
  | takeOutput => exact congrArg some (takeOutput_of_not_awaitingOutput hf (of_decide_eq_false h))

/-! ### Allowed commands -/

theorem State.fault_of_report {s : State} {c : Cause} {info : Word} (h : s.report = .fault c info) :
    s.fault = some c := by
  cases hf : s.fault with
  | none => rw [State.report_of_no_fault hf] at h; cases h
  | some c' =>
    rw [State.report_of_fault hf] at h
    cases h
    rfl

/-- No stage of a step but the run-state gate raises a contract violation. -/
theorem step_no_violation {s t : State} (hf : s.fault = none) (hr : s.runState = .running ∨ s.runState = .stopped)
    (h : step s = .next t) : t.fault ≠ some .contractViolation := by
  cases step_cases h with
  | recordedFault _ hf' => cases hf.symm.trans hf'
  | alreadyStopped | ranOff | truncated => exact fun ht => nomatch hf.symm.trans ht
  | awaiting _ hr' => rcases hr with hr | hr <;> simp [hr] at hr'
  | negativePc | illegalOpcode | illegalMode => simp
  | executed i _ _ _ _ _ hexec =>
    intro ht
    rcases exec_fault hexec with hkept | ⟨e, rfl, hout | ⟨rfl, -⟩⟩
    · cases hf.symm.trans (hkept.symm.trans ht)
    · cases hout.symm.trans (Option.some.inj ht)
    · cases ht

/-- Steps that report `Ok` lead to a Machine that runs without a fault. -/
theorem running_of_okSteps {n : Nat} {s u : State} (hf : s.fault = none) (hr : s.runState = .running)
    (h : OkSteps n s u) : u.fault = none ∧ u.runState = .running := by
  induction n generalizing s with
  | zero => exact h ▸ ⟨hf, hr⟩
  | succ n ih =>
    obtain ⟨v, hv, hsteps⟩ := h
    obtain ⟨hfv, hrv⟩ := v.report_eq_ok_iff.1 (stepCommand_some hv).2.symm
    exact ih hfv hrv hsteps

theorem run_no_violation {fuel : Nat} {s t : State} {info : Word} (hf : s.fault = none) :
    run fuel s ≠ some (t, .fault .contractViolation info) := by
  intro h
  by_cases hr : s.runState = .running
  · obtain ⟨n, u, r', hsteps, hlast, -, hreport⟩ := okSteps_of_run hf hr h
    obtain ⟨hfu, hru⟩ := running_of_okSteps hf hr hsteps
    obtain ⟨hstep, rfl⟩ := stepCommand_some hlast
    have hviolation : t.report = .fault .contractViolation info := by
      cases hr' : t.report <;> simp_all [runReport]
    exact step_no_violation hfu (.inl hru) hstep (State.fault_of_report hviolation)
  · simp [run_of_not_running fuel hf hr] at h

/-- Reading the pending instruction again is out of bounds or meets an illegal mode. -/
theorem pending_error {s : State} {e : Raised} (h : pending s = .error e) :
    e.cause = .outOfBounds ∨ e.cause = .invalidMode := by
  simp only [pending, bind, Except.bind] at h
  split at h
  · rename_i he
    cases h
    exact .inl (by rw [memRead_error he])
  split at h
  · rename_i he
    cases h
    exact .inl (by rw [memRead_error he])
  split at h
  · cases h
  · cases h
    exact .inr rfl

theorem completeIn_error {v : Word} {s : State} {e : Raised} (h : completeIn v s = .error e) :
    e.cause = .outOfBounds ∨ e.cause = .invalidMode := by
  simp only [completeIn, bind, Except.bind] at h
  split at h
  · rename_i he
    cases h
    exact pending_error he
  split at h
  · rename_i he
    cases h
    exact .inl (by rw [memWrite_error he])
  · cases h

theorem completeOut_error {s : State} {e : Raised} (h : completeOut s = .error e) :
    e.cause = .outOfBounds ∨ e.cause = .invalidMode := by
  simp only [completeOut, bind, Except.bind] at h
  split at h
  · rename_i he
    cases h
    exact pending_error he
  split at h
  · rename_i he
    cases h
    exact .inl (by rw [resolve_error he])
  · cases h

theorem supplyInput_no_violation {v info : Word} {s : State} (hf : s.fault = none) (hr : s.runState = .awaitingInput) :
    (supplyInput v s).2 ≠ .fault .contractViolation info := by
  rw [supplyInput_of_awaitingInput hf hr]
  cases hc : completeIn v s with
  | ok t => exact nofun
  | error e => rcases completeIn_error hc with he | he <;> simp [Except.map, finishCommand, he]

theorem takeOutput_no_violation {info : Word} {s : State} (hf : s.fault = none) (hr : s.runState = .awaitingOutput) :
    (takeOutput s).2 ≠ .fault .contractViolation info := by
  rw [takeOutput_of_awaitingOutput hf hr]
  cases hc : completeOut s with
  | ok t => exact nofun
  | error e => rcases completeOut_error hc with he | he <;> simp [Except.map, finishCommand, he]

/-- Where the matrix allows a command, it reports no contract violation. -/
theorem perform_no_violation {fuel : Nat} {c : Command} {s t : State} {info : Word} (hf : s.fault = none)
    (hallowed : allowed c s.runState = true) : perform fuel c s ≠ some (t, .fault .contractViolation info) := by
  intro h
  cases c with
  | create | peek | isRunning | copy => exact (perform_observer rfl h).2.1 _ _ rfl
  | step =>
    obtain ⟨hstep, hreport⟩ := stepCommand_some h
    exact step_no_violation hf (of_decide_eq_true hallowed) hstep (State.fault_of_report hreport.symm)
  | supplyInput v =>
    exact supplyInput_no_violation hf (of_decide_eq_true hallowed) (congrArg Prod.snd (Option.some.inj h))
  | takeOutput =>
    exact takeOutput_no_violation hf (of_decide_eq_true hallowed) (congrArg Prod.snd (Option.some.inj h))
  | run => exact run_no_violation hf h

/-- Settles O45: a forbidden command ends at its gate, and an allowed one raises other faults only. -/
theorem contractMatrixDecidesViolations : Obligations.ContractMatrixDecidesViolations := by
  intro fuel c s t r hf h
  cases hallowed : allowed c s.runState with
  | true =>
    refine ⟨⟨?_, nofun⟩, nofun⟩
    rintro ⟨info, rfl⟩
    exact absurd h (perform_no_violation hf hallowed)
  | false =>
    rw [perform_of_not_allowed hf hallowed] at h
    cases h
    exact ⟨⟨fun _ => rfl, fun _ => ⟨_, rfl⟩⟩, fun _ => ⟨rfl, rfl⟩⟩

end Sys2Proof.Machine

/-! ## A run that never returns (70_reset_and_hazards.md R258) -/

namespace Sys2Proof.Machine

open Statement

/-- A running Machine that a step leaves as it is has no result of run. -/
theorem run_eq_none_of_step_self {s : State} (hf : s.fault = none) (hr : s.runState = .running)
    (hstep : step s = .next s) (fuel : Nat) : run fuel s = none := by
  have hok : stepCommand s = some (s, .status .ok) := by
    rw [stepCommand_of_step hstep, s.report_eq_ok_iff.2 ⟨hf, hr⟩]
  have hloop : ∀ n, runLoop fuel n s = none := by
    induction fuel with
    | zero => exact fun _ => rfl
    | succ fuel ih => exact fun n => (runLoop_succ_of_ok hok).trans (ih (n + 1))
  rw [run_of_running hf hr, hloop]

/-- Settles O52: the taken jump to the pc leaves the Machine as it is. -/
theorem selfLoopNeverReturns : Obligations.SelfLoopNeverReturns := by
  intro s h c x hs hupper hm2 hc
  have ⟨hf, hr, _⟩ := hs
  have htarget : Reads s s.pc h.m2 s.pc := hm2 ▸ ⟨nofun, fun _ => rfl⟩
  obtain ⟨-, -, -, hjt, -⟩ := jtJumpsOnNonzero h c s.pc s
  obtain ⟨-, -, -, hjf, -⟩ := jfJumpsOnZero h c s.pc s
  refine ⟨fun hst hx => run_eq_none_of_step_self hf hr ?_, fun hst hx => run_eq_none_of_step_self hf hr ?_⟩
  · exact (stepRunsTheInstructionStoredAtThePc s (.jt h c s.pc) hs hupper hst).trans (hjt x s.pc hc htarget hx).1
  · exact (stepRunsTheInstructionStoredAtThePc s (.jf h c s.pc) hs hupper hst).trans (hjf x s.pc hc htarget hx).1

end Sys2Proof.Machine

/-! ## peek, copy and the codes (46_host_interface.md R206, R208, 92_eei_decisions.md D10) -/

namespace Sys2Proof.Machine

/-- Settles O53: peek reads without a gate, copy answers the state it was given. -/
theorem peekAndCopyOnlyObserve : Obligations.PeekAndCopyOnlyObserve := by
  refine fun fuel s a => ⟨fun hv => ?_, fun hv => ?_, perform_copy fuel s⟩
  · simp only [perform, peek, if_pos hv]
  · simp only [perform, peek, if_neg hv]

/-- Settles O56: the tables of codes, row by row. -/
theorem numericCodes : Obligations.NumericCodes :=
  ⟨rfl, rfl, rfl, rfl, rfl⟩

end Sys2Proof.Machine
